-- ==== Sys2Proof/Word.lean ====
section
/-! DEFINITION. The widths of the machine (spec/00_scope.md R4, R5): bytes, 16-bit words, register numbers
and the immediate fields of an opcode. Every quantity is unsigned (R5). -/

namespace Sys2Proof

/-- A register, a memory byte, a timer, a colour, a plane cell (R4, R20, R26, R29, R30, R32). -/
abbrev Byte := BitVec 8

/-- An opcode, `I`, `PC`, or a call-stack slot (R4, R22, R23, R25, R80). -/
abbrev Word := BitVec 16

/-- The `nnn` field of an opcode (R81). -/
abbrev Imm12 := BitVec 12

/-- The `n` field of an opcode (R81); also the width of `SP` (R24). -/
abbrev Nibble := BitVec 4

/-- The number of a general register, or of a key: 0 to 15 (R20, R35). -/
abbrev Reg := Fin 16

end Sys2Proof
end

