-- ==== Sys2Proof/Config.lean ====
section
/-! DEFINITION. What is fixed for a session (the parameters of spec/00_scope.md R4 that the spec leaves to the
model's user, and the program image), the inputs of a step, and the free value those inputs have where the host
has lined none up. The DEFAULT value of each parameter is in Machine/Defaults.lean. -/

namespace Sys2Proof

/-- The drawing semantics of `Plot` (spec/45_display.md R172, parameter `DRAW_MODE`). -/
inductive DrawMode where
  | overwrite
  | xor
deriving DecidableEq, Repr

/-- The register that `8xy6` and `8xyE` shift (spec/42_alu.md R138, parameter `SHIFT_SRC`). -/
inductive ShiftSrc where
  | vx
  | vy
deriving DecidableEq, Repr

/-- The display width mode: 64x32 or 128x64 (spec/10_state.md R31). -/
inductive Width where
  | w64
  | w128
deriving DecidableEq, Repr

/-- The parameters of a session: the three that R4 calls `OPEN`, taken here as an argument (log 2), and the image
that every reset of the session loads (spec/10_state.md R38, log 3). No step writes any of them. -/
structure Config where
  /-- `DRAW_MODE` (R4, R172). -/
  drawMode : DrawMode
  /-- `SHIFT_SRC` (R4, R138). -/
  shiftSrc : ShiftSrc
  /-- `FONT`, the 80 bytes at addresses 0 to 79 (R44). -/
  font     : Vector Byte 80
  /-- The program image (R38); bytes past the first 3584 are never loaded (R77). -/
  image    : List Byte
deriving DecidableEq, Repr

/-- The inputs that one step samples (spec/10_state.md R35 to R37). -/
structure Inputs where
  /-- Bit `k` is 1 when key `k` is down (R35). -/
  keys : BitVec 16
  /-- At least 1/60 s has gone by since the last timer decrement (R36). -/
  tick : Bool
  /-- One number in 0..254 from the host's generator (R37). -/
  rnd  : Fin 255
deriving DecidableEq, Repr, Inhabited

/-- A FREE VALUE (log 1): the inputs the host gives at its k-th step, where the state holds none for it. The spec
puts no law on `keys` and `tick`, and none on `rnd` beyond its range (R35 to R37). -/
opaque Config.freeInputs : Nat → Inputs

end Sys2Proof
end

