-- ==== Sys2Proof/Syntax.lean ====
section
/-! DEFINITION. The instructions: one constructor for each of the 46 rows of spec/opcode_table.json, with the
operand fields the row gives (spec/30_encoding.md R81, R82). Each constructor names its pattern and its rule. -/

namespace Sys2Proof

/-- An instruction. `x`, `y` are register numbers, `kk`, `n`, `nnn` unsigned immediates (R83); every value of a
field's type is a value the encoding admits, so an `Instr` is well formed by its types. -/
inductive Instr where
  /-- `00Cn` SCD n (R174). -/
  | scd (n : Nibble)
  /-- `00E0` CLS (R173). -/
  | cls
  /-- `00EE` RET (R101). -/
  | ret
  /-- `00FB` SCR (R175). -/
  | scr
  /-- `00FC` SCL (R176). -/
  | scl
  /-- `00FD` EXIT (R102). -/
  | exit
  /-- `00FE` LOW (R177). -/
  | low
  /-- `00FF` HIGH (R178). -/
  | high
  /-- `0100` SYS 0x100, the frequency hint (R103). -/
  | sys100
  /-- `0101` SYS 0x101, the soft reset (R105). -/
  | sys101
  /-- `0102` SYS 0x102, the colours (R179). -/
  | sys102
  /-- `1nnn` JP nnn (R108). -/
  | jp (nnn : Imm12)
  /-- `2nnn` CALL nnn (R109). -/
  | call (nnn : Imm12)
  /-- `3xkk` SE Vx, kk (R121). -/
  | seImm (x : Reg) (kk : Byte)
  /-- `4xkk` SNE Vx, kk (R122). -/
  | sneImm (x : Reg) (kk : Byte)
  /-- `5xy0` SE Vx, Vy (R123). -/
  | seReg (x y : Reg)
  /-- `6xkk` LD Vx, kk (R130). -/
  | ldImm (x : Reg) (kk : Byte)
  /-- `7xkk` ADD Vx, kk (R131). -/
  | addImm (x : Reg) (kk : Byte)
  /-- `8xy0` LD Vx, Vy (R132). -/
  | ldReg (x y : Reg)
  /-- `8xy1` OR Vx, Vy (R133). -/
  | or (x y : Reg)
  /-- `8xy2` AND Vx, Vy (R134). -/
  | and (x y : Reg)
  /-- `8xy3` XOR Vx, Vy (R135). -/
  | xor (x y : Reg)
  /-- `8xy4` ADD Vx, Vy (R136). -/
  | addReg (x y : Reg)
  /-- `8xy5` SUB Vx, Vy (R137). -/
  | sub (x y : Reg)
  /-- `8xy6` SHR Vx, Vy (R138). -/
  | shr (x y : Reg)
  /-- `8xy7` SUBN Vx, Vy (R139). -/
  | subn (x y : Reg)
  /-- `8xyE` SHL Vx, Vy (R140). -/
  | shl (x y : Reg)
  /-- `9xy0` SNE Vx, Vy (R124). -/
  | sneReg (x y : Reg)
  /-- `Annn` LD I, nnn (R151). -/
  | ldI (nnn : Imm12)
  /-- `Bnnn` JP V0, nnn (R104). -/
  | jpV0 (nnn : Imm12)
  /-- `Cxkk` RND Vx, kk (R141). -/
  | rnd (x : Reg) (kk : Byte)
  /-- `Dxyn` DRW Vx, Vy, n (R180). -/
  | drw (x y : Reg) (n : Nibble)
  /-- `Ex9E` SKP Vx (R125). -/
  | skp (x : Reg)
  /-- `ExA1` SKNP Vx (R126). -/
  | sknp (x : Reg)
  /-- `Fx07` LD Vx, DT (R160). -/
  | ldVxDt (x : Reg)
  /-- `Fx0A` LD Vx, K (R161). -/
  | ldVxK (x : Reg)
  /-- `Fx15` LD DT, Vx (R162). -/
  | ldDtVx (x : Reg)
  /-- `Fx18` LD ST, Vx (R163). -/
  | ldStVx (x : Reg)
  /-- `Fx1E` ADD I, Vx (R152). -/
  | addI (x : Reg)
  /-- `Fx29` LD F, Vx (R153). -/
  | ldF (x : Reg)
  /-- `Fx33` LD B, Vx (R154). -/
  | ldB (x : Reg)
  /-- `Fx55` LD [I], Vx (R155). -/
  | storeRegs (x : Reg)
  /-- `Fx65` LD Vx, [I] (R156). -/
  | loadRegs (x : Reg)
  /-- `Fx30`, explicitly unsupported (R87, R202). -/
  | unsupportedFx30 (x : Reg)
  /-- `Fx75`, explicitly unsupported (R87, R202). -/
  | unsupportedFx75 (x : Reg)
  /-- `Fx85`, explicitly unsupported (R87, R202). -/
  | unsupportedFx85 (x : Reg)
deriving DecidableEq, Repr

end Sys2Proof
end

