-- ==== Sys2Proof/WellFormed.lean ====
section
/-! DEFINITION. What is well formed: an opcode word (it matches a row of the opcode table, spec/30_encoding.md R91)
and the host's image (spec/10_state.md R38). An `Instr` needs no check of its own: its field types admit exactly the
values its encoding admits (R81, R83). -/

namespace Sys2Proof

/-- One row of spec/opcode_table.json: an opcode `op` belongs to it when `op &&& mask = value` (R91). -/
structure OpcodeRow where
  mnemonic : String
  value    : Word
  mask     : Word
deriving DecidableEq, Repr

/-- Does the opcode match the row? (R91) -/
def OpcodeRow.accepts (r : OpcodeRow) (op : Word) : Bool := op &&& r.mask == r.value

/-- The rows of family 0 (R84). -/
def opcodeTableFamily0 : List OpcodeRow :=
  [⟨"SCD_n", 0x00c0#16, 0xfff0#16⟩,
   ⟨"CLS", 0x00e0#16, 0xffff#16⟩,
   ⟨"RET", 0x00ee#16, 0xffff#16⟩,
   ⟨"SCR", 0x00fb#16, 0xffff#16⟩,
   ⟨"SCL", 0x00fc#16, 0xffff#16⟩,
   ⟨"EXIT", 0x00fd#16, 0xffff#16⟩,
   ⟨"LOW", 0x00fe#16, 0xffff#16⟩,
   ⟨"HIGH", 0x00ff#16, 0xffff#16⟩,
   ⟨"SYS_0x100", 0x0100#16, 0xffff#16⟩,
   ⟨"SYS_0x101", 0x0101#16, 0xffff#16⟩,
   ⟨"SYS_0x102", 0x0102#16, 0xffff#16⟩]

/-- The rows of families 1 to 7 (R84). -/
def opcodeTableFamilies1To7 : List OpcodeRow :=
  [⟨"JP_nnn", 0x1000#16, 0xf000#16⟩,
   ⟨"CALL_nnn", 0x2000#16, 0xf000#16⟩,
   ⟨"SE_Vx__kk", 0x3000#16, 0xf000#16⟩,
   ⟨"SNE_Vx__kk", 0x4000#16, 0xf000#16⟩,
   ⟨"SE_Vx__Vy", 0x5000#16, 0xf00f#16⟩,
   ⟨"LD_Vx__kk", 0x6000#16, 0xf000#16⟩,
   ⟨"ADD_Vx__kk", 0x7000#16, 0xf000#16⟩]

/-- The rows of families 8 and 9 (R84). -/
def opcodeTableFamilies8To9 : List OpcodeRow :=
  [⟨"LD_Vx__Vy", 0x8000#16, 0xf00f#16⟩,
   ⟨"OR_Vx__Vy", 0x8001#16, 0xf00f#16⟩,
   ⟨"AND_Vx__Vy", 0x8002#16, 0xf00f#16⟩,
   ⟨"XOR_Vx__Vy", 0x8003#16, 0xf00f#16⟩,
   ⟨"ADD_Vx__Vy", 0x8004#16, 0xf00f#16⟩,
   ⟨"SUB_Vx__Vy", 0x8005#16, 0xf00f#16⟩,
   ⟨"SHR_Vx__Vy", 0x8006#16, 0xf00f#16⟩,
   ⟨"SUBN_Vx__Vy", 0x8007#16, 0xf00f#16⟩,
   ⟨"SHL_Vx__Vy", 0x800e#16, 0xf00f#16⟩,
   ⟨"SNE_Vx__Vy", 0x9000#16, 0xf00f#16⟩]

/-- The rows of families A to E (R84). -/
def opcodeTableFamiliesAToE : List OpcodeRow :=
  [⟨"LD_I__nnn", 0xa000#16, 0xf000#16⟩,
   ⟨"JP_V0__nnn", 0xb000#16, 0xf000#16⟩,
   ⟨"RND_Vx__kk", 0xc000#16, 0xf000#16⟩,
   ⟨"DRW_Vx__Vy__n", 0xd000#16, 0xf000#16⟩,
   ⟨"SKP_Vx", 0xe09e#16, 0xf0ff#16⟩,
   ⟨"SKNP_Vx", 0xe0a1#16, 0xf0ff#16⟩]

/-- The rows of family F (R84). -/
def opcodeTableFamilyF : List OpcodeRow :=
  [⟨"LD_Vx__DT", 0xf007#16, 0xf0ff#16⟩,
   ⟨"LD_Vx__K", 0xf00a#16, 0xf0ff#16⟩,
   ⟨"LD_DT__Vx", 0xf015#16, 0xf0ff#16⟩,
   ⟨"LD_ST__Vx", 0xf018#16, 0xf0ff#16⟩,
   ⟨"ADD_I__Vx", 0xf01e#16, 0xf0ff#16⟩,
   ⟨"LD_F__Vx", 0xf029#16, 0xf0ff#16⟩,
   ⟨"LD_B__Vx", 0xf033#16, 0xf0ff#16⟩,
   ⟨"LD__I___Vx", 0xf055#16, 0xf0ff#16⟩,
   ⟨"LD_Vx___I", 0xf065#16, 0xf0ff#16⟩,
   ⟨"UNSUPPORTED_Fx30", 0xf030#16, 0xf0ff#16⟩,
   ⟨"UNSUPPORTED_Fx75", 0xf075#16, 0xf0ff#16⟩,
   ⟨"UNSUPPORTED_Fx85", 0xf085#16, 0xf0ff#16⟩]

/-- The opcode table: 46 rows (R91). -/
def opcodeTable : List OpcodeRow :=
  opcodeTableFamily0 ++ opcodeTableFamilies1To7 ++ opcodeTableFamilies8To9 ++ opcodeTableFamiliesAToE ++
    opcodeTableFamilyF

/-- An opcode word is well formed when it matches a row; every other word is an invalid encoding (R86, R91). -/
def opcodeWellFormed (op : Word) : Bool := opcodeTable.any fun r => r.accepts op

/-- The host's image is a byte string of length 0..3584 (R38). A longer one is no fault: R77 cuts it. -/
def Config.imageWellFormed (c : Config) : Bool := c.image.length ≤ 3584

end Sys2Proof
end

