-- ==== Sys2Proof/Decode.lean ====
section
/-! DEFINITION. Decoding (spec/30_encoding.md R80 to R88), total on any bytes and refusing by name, and after it the
encoder, written from the formats of R82. The decoder is a function of the 16 opcode bits alone (R84). -/

namespace Sys2Proof

/-- Why bytes do not decode. -/
inductive DecodeError where
  /-- The opcode matches no row of R84: the invalid encodings of R86, with the offending bits (R201). -/
  | invalid (op : Word)
  /-- Fewer than two bytes are left: every instruction is 16 bits long (R80). A fetch never meets this. -/
  | tooShort
deriving DecidableEq, Repr

/-! ### The fields of an opcode (R81) -/

/-- `f = op[15:12]`, the family. -/
def fieldF (op : Word) : Nibble := op.extractLsb' 12 4
/-- `nnn = op[11:0]`. -/
def fieldNNN (op : Word) : Imm12 := op.extractLsb' 0 12
/-- `x = op[11:8]`, a register number. -/
def fieldX (op : Word) : Reg := (op.extractLsb' 8 4).toFin
/-- `y = op[7:4]`, a register number. -/
def fieldY (op : Word) : Reg := (op.extractLsb' 4 4).toFin
/-- `kk = op[7:0]`. -/
def fieldKK (op : Word) : Byte := op.extractLsb' 0 8
/-- `n = op[3:0]`. -/
def fieldN (op : Word) : Nibble := op.extractLsb' 0 4

/-! ### One function per family that has a selector (R84) -/

/-- Family 0: the low 12 bits select; `00Cn` takes any `n`. Everything else is invalid (R86, R107). -/
def decodeFamily0 (op : Word) : Except DecodeError Instr :=
  if op.extractLsb' 4 8 = 0x0C#8 then .ok (.scd (fieldN op))
  else match (fieldNNN op).toNat with
    | 0x0E0 => .ok .cls
    | 0x0EE => .ok .ret
    | 0x0FB => .ok .scr
    | 0x0FC => .ok .scl
    | 0x0FD => .ok .exit
    | 0x0FE => .ok .low
    | 0x0FF => .ok .high
    | 0x100 => .ok .sys100
    | 0x101 => .ok .sys101
    | 0x102 => .ok .sys102
    | _ => .error (.invalid op)

/-- Family 5: only `n` = 0 (R86). -/
def decodeFamily5 (op : Word) : Except DecodeError Instr :=
  if fieldN op = 0 then .ok (.seReg (fieldX op) (fieldY op)) else .error (.invalid op)

/-- Family 8: `n` selects. -/
def decodeFamily8 (op : Word) : Except DecodeError Instr :=
  match (fieldN op).toNat with
  | 0x0 => .ok (.ldReg (fieldX op) (fieldY op))
  | 0x1 => .ok (.or (fieldX op) (fieldY op))
  | 0x2 => .ok (.and (fieldX op) (fieldY op))
  | 0x3 => .ok (.xor (fieldX op) (fieldY op))
  | 0x4 => .ok (.addReg (fieldX op) (fieldY op))
  | 0x5 => .ok (.sub (fieldX op) (fieldY op))
  | 0x6 => .ok (.shr (fieldX op) (fieldY op))
  | 0x7 => .ok (.subn (fieldX op) (fieldY op))
  | 0xE => .ok (.shl (fieldX op) (fieldY op))
  | _ => .error (.invalid op)

/-- Family 9: only `n` = 0 (R86). -/
def decodeFamily9 (op : Word) : Except DecodeError Instr :=
  if fieldN op = 0 then .ok (.sneReg (fieldX op) (fieldY op)) else .error (.invalid op)

/-- Family E: `kk` selects. -/
def decodeFamilyE (op : Word) : Except DecodeError Instr :=
  match (fieldKK op).toNat with
  | 0x9E => .ok (.skp (fieldX op))
  | 0xA1 => .ok (.sknp (fieldX op))
  | _ => .error (.invalid op)

/-- Family F: `kk` selects, whatever `x`; three of the values are the unsupported encodings (R87). -/
def decodeFamilyF (op : Word) : Except DecodeError Instr :=
  match (fieldKK op).toNat with
  | 0x07 => .ok (.ldVxDt (fieldX op))
  | 0x0A => .ok (.ldVxK (fieldX op))
  | 0x15 => .ok (.ldDtVx (fieldX op))
  | 0x18 => .ok (.ldStVx (fieldX op))
  | 0x1E => .ok (.addI (fieldX op))
  | 0x29 => .ok (.ldF (fieldX op))
  | 0x30 => .ok (.unsupportedFx30 (fieldX op))
  | 0x33 => .ok (.ldB (fieldX op))
  | 0x55 => .ok (.storeRegs (fieldX op))
  | 0x65 => .ok (.loadRegs (fieldX op))
  | 0x75 => .ok (.unsupportedFx75 (fieldX op))
  | 0x85 => .ok (.unsupportedFx85 (fieldX op))
  | _ => .error (.invalid op)

/-- Decode one opcode: dispatch on the top nibble, then on what selects inside the family (R84). -/
def decodeWord (op : Word) : Except DecodeError Instr :=
  match (fieldF op).toNat with
  | 0x0 => decodeFamily0 op
  | 0x1 => .ok (.jp (fieldNNN op))
  | 0x2 => .ok (.call (fieldNNN op))
  | 0x3 => .ok (.seImm (fieldX op) (fieldKK op))
  | 0x4 => .ok (.sneImm (fieldX op) (fieldKK op))
  | 0x5 => decodeFamily5 op
  | 0x6 => .ok (.ldImm (fieldX op) (fieldKK op))
  | 0x7 => .ok (.addImm (fieldX op) (fieldKK op))
  | 0x8 => decodeFamily8 op
  | 0x9 => decodeFamily9 op
  | 0xA => .ok (.ldI (fieldNNN op))
  | 0xB => .ok (.jpV0 (fieldNNN op))
  | 0xC => .ok (.rnd (fieldX op) (fieldKK op))
  | 0xD => .ok (.drw (fieldX op) (fieldY op) (fieldN op))
  | 0xE => decodeFamilyE op
  | _ => decodeFamilyF op

/-- Two bytes as an opcode: the byte at the lower address is the high byte (R63, R64). -/
def bytesToOpcode (hi lo : Byte) : Word := hi ++ lo

/-- Decode the first instruction of a byte string, and give back the rest of the string (R80, R90). -/
def decode : List Byte → Except DecodeError (Instr × List Byte)
  | hi :: lo :: rest =>
    match decodeWord (bytesToOpcode hi lo) with
    | .ok i => .ok (i, rest)
    | .error e => .error e
  | [_] => .error .tooShort
  | [] => .error .tooShort

/-! ### The encoder, from the formats of R82 -/

/-- Format `A`: `f nnn`. -/
def formatA (f : Nibble) (nnn : Imm12) : Word := f ++ nnn
/-- Format `XK`: `f x kk`; with `kk` fixed it is format `X`. -/
def formatXK (f : Nibble) (x : Reg) (kk : Byte) : Word := (f ++ BitVec.ofFin (w := 4) x) ++ kk
/-- Format `XYN`: `f x y n`; with `n` fixed it is format `XY`. -/
def formatXYN (f : Nibble) (x y : Reg) (n : Nibble) : Word :=
  ((f ++ BitVec.ofFin (w := 4) x) ++ BitVec.ofFin (w := 4) y) ++ n
/-- Format `ZN`: twelve fixed bits, then `n`. -/
def formatZN (fixed : Imm12) (n : Nibble) : Word := fixed ++ n

/-- The opcode of an instruction (R82, R84). -/
def encodeWord : Instr → Word
  | .scd n => formatZN 0x00C#12 n
  | .cls => 0x00E0#16
  | .ret => 0x00EE#16
  | .scr => 0x00FB#16
  | .scl => 0x00FC#16
  | .exit => 0x00FD#16
  | .low => 0x00FE#16
  | .high => 0x00FF#16
  | .sys100 => 0x0100#16
  | .sys101 => 0x0101#16
  | .sys102 => 0x0102#16
  | .jp nnn => formatA 0x1#4 nnn
  | .call nnn => formatA 0x2#4 nnn
  | .seImm x kk => formatXK 0x3#4 x kk
  | .sneImm x kk => formatXK 0x4#4 x kk
  | .seReg x y => formatXYN 0x5#4 x y 0x0#4
  | .ldImm x kk => formatXK 0x6#4 x kk
  | .addImm x kk => formatXK 0x7#4 x kk
  | .ldReg x y => formatXYN 0x8#4 x y 0x0#4
  | .or x y => formatXYN 0x8#4 x y 0x1#4
  | .and x y => formatXYN 0x8#4 x y 0x2#4
  | .xor x y => formatXYN 0x8#4 x y 0x3#4
  | .addReg x y => formatXYN 0x8#4 x y 0x4#4
  | .sub x y => formatXYN 0x8#4 x y 0x5#4
  | .shr x y => formatXYN 0x8#4 x y 0x6#4
  | .subn x y => formatXYN 0x8#4 x y 0x7#4
  | .shl x y => formatXYN 0x8#4 x y 0xE#4
  | .sneReg x y => formatXYN 0x9#4 x y 0x0#4
  | .ldI nnn => formatA 0xA#4 nnn
  | .jpV0 nnn => formatA 0xB#4 nnn
  | .rnd x kk => formatXK 0xC#4 x kk
  | .drw x y n => formatXYN 0xD#4 x y n
  | .skp x => formatXK 0xE#4 x 0x9E#8
  | .sknp x => formatXK 0xE#4 x 0xA1#8
  | .ldVxDt x => formatXK 0xF#4 x 0x07#8
  | .ldVxK x => formatXK 0xF#4 x 0x0A#8
  | .ldDtVx x => formatXK 0xF#4 x 0x15#8
  | .ldStVx x => formatXK 0xF#4 x 0x18#8
  | .addI x => formatXK 0xF#4 x 0x1E#8
  | .ldF x => formatXK 0xF#4 x 0x29#8
  | .ldB x => formatXK 0xF#4 x 0x33#8
  | .storeRegs x => formatXK 0xF#4 x 0x55#8
  | .loadRegs x => formatXK 0xF#4 x 0x65#8
  | .unsupportedFx30 x => formatXK 0xF#4 x 0x30#8
  | .unsupportedFx75 x => formatXK 0xF#4 x 0x75#8
  | .unsupportedFx85 x => formatXK 0xF#4 x 0x85#8

/-- The high byte of an opcode, stored at the lower address (R63, R64). -/
def opcodeHigh (op : Word) : Byte := op.extractLsb' 8 8
/-- The low byte of an opcode, stored at the higher address (R63, R64). -/
def opcodeLow (op : Word) : Byte := op.extractLsb' 0 8

/-- The two bytes of an instruction as they lie in memory: big-endian (R64). -/
def encode (i : Instr) : List Byte := [opcodeHigh (encodeWord i), opcodeLow (encodeWord i)]

/-! ### The host's reading of a table row -/

/-- The opcode word whose bits are the low `nbits` bits of `w`, every bit above them 0. -/
def tableOpcode (nbits w : Nat) : Word := BitVec.ofNat 16 (w % 2 ^ nbits)

/-- What the decoder reads from an instruction whose bits, numbered as the opcode table numbers them, are `w`:
its bytes are laid out as memory holds them and given to `decode`. -/
def decodeTableWord (nbits w : Nat) : Option Instr :=
  match decode [opcodeHigh (tableOpcode nbits w), opcodeLow (tableOpcode nbits w)] with
  | .ok (i, _) => some i
  | .error _ => none

end Sys2Proof
end

