-- ==== Sys2Proof/Machine/Defaults.lean ====
section
/-! DEFINITION. The values of spec/00_scope.md R4 that the spec decided where its source is silent: the default
parameters (`FONT`, `DRAW_MODE`, `SHIFT_SRC`) and the reset values of R41 that its source does not give (log 4). -/

namespace Sys2Proof.Machine

/-- The customary font, digits 0 to 7 (spec/10_state.md R44). -/
def fontDigits0To7 : List Byte :=
  [0xF0, 0x90, 0x90, 0x90, 0xF0,
   0x20, 0x60, 0x20, 0x20, 0x70,
   0xF0, 0x10, 0xF0, 0x80, 0xF0,
   0xF0, 0x10, 0xF0, 0x10, 0xF0,
   0x90, 0x90, 0xF0, 0x10, 0x10,
   0xF0, 0x80, 0xF0, 0x10, 0xF0,
   0xF0, 0x80, 0xF0, 0x90, 0xF0,
   0xF0, 0x10, 0x20, 0x40, 0x40]

/-- The customary font, digits 8 to F (R44). -/
def fontDigits8ToF : List Byte :=
  [0xF0, 0x90, 0xF0, 0x90, 0xF0,
   0xF0, 0x90, 0xF0, 0x10, 0xF0,
   0xF0, 0x90, 0xF0, 0x90, 0x90,
   0xE0, 0x90, 0xE0, 0x90, 0xE0,
   0xF0, 0x80, 0x80, 0x80, 0xF0,
   0xE0, 0x90, 0x90, 0x90, 0xE0,
   0xF0, 0x80, 0xF0, 0x80, 0xF0,
   0xF0, 0x80, 0xF0, 0x80, 0x80]

/-- The default `FONT`: byte `a` is the one at address `a` (R44). -/
def defaultFont : Vector Byte 80 := Vector.ofFn fun a => (fontDigits0To7 ++ fontDigits8ToF).getD a 0

/-- The default `DRAW_MODE` (R4, D8). -/
def defaultDrawMode : DrawMode := .overwrite

/-- The default `SHIFT_SRC` (R4, D9). -/
def defaultShiftSrc : ShiftSrc := .vx

/-- The default session, with no image: a program is loaded by the host's reset (log 3). -/
def defaultConfig : Config :=
  ⟨defaultDrawMode, defaultShiftSrc, defaultFont, []⟩

/-- `RESET_WIDTH` (R4, R41, D7). -/
def resetWidth : Width := .w64
/-- `RESET_FG` (R4, R41, D7). -/
def resetFg : Byte := 1
/-- `RESET_BG` (R4, R41, D7). -/
def resetBg : Byte := 0
/-- `PROG_BASE`: where the image is loaded and the first instruction is fetched (R4, R77, R232). -/
def progBase : Word := 0x200

end Sys2Proof.Machine
end

