-- ==== Sys2Proof/Machine/Cells.lean ====
section
/-! DEFINITION. A byte space as plain data, in one canonical form: the cells that differ from what an unlisted
address reads as, by rising address. Main memory and the display plane are both held so. -/

namespace Sys2Proof

/-! ### The geometry of the display (spec/10_state.md R30, R31) -/

/-- Columns: 64 or 128 (R31). -/
def Width.cols : Width → Nat
  | .w64 => 64
  | .w128 => 128

/-- Rows: `width / 2` (R31). -/
def Width.rows (w : Width) : Nat := w.cols / 2

/-- The number of live cells (R30). -/
def Width.liveCells (w : Width) : Nat := w.cols * w.rows

/-- The pixel lies on the plane: each coordinate is tested by itself (R172). -/
def Width.onPlane (w : Width) (px py : Nat) : Bool := px < w.cols && py < w.rows

end Sys2Proof

namespace Sys2Proof.Machine

/-- A space of bytes: its listed cells. -/
abbrev Cells := List Host.Cell

/-- The byte at address `a`; `bg` says what an unlisted address reads as. -/
def Cells.read (bg : Nat → Byte) : Cells → Nat → Byte
  | [], a => bg a
  | (k, c) :: rest, a => if a = k then c else Cells.read bg rest a

/-- Put byte `b` at address `a`, keeping the canonical form. -/
def Cells.write (bg : Nat → Byte) (a : Nat) (b : Byte) : Cells → Cells
  | [] => if b = bg a then [] else [(a, b)]
  | (k, c) :: rest =>
    if a < k then (if b = bg a then (k, c) :: rest else (a, b) :: (k, c) :: rest)
    else if a = k then (if b = bg a then rest else (a, b) :: rest)
    else (k, c) :: Cells.write bg a b rest

/-- The canonical form from address `lo` on: addresses strictly rising and below `size`, no cell equal to what an
unlisted address reads as. -/
def Cells.wfFrom (bg : Nat → Byte) (size : Nat) : Nat → Cells → Bool
  | _, [] => true
  | lo, (k, c) :: rest => lo ≤ k && k < size && c != bg k && Cells.wfFrom bg size (k + 1) rest

/-- The cells of the space of `size` bytes whose byte at `a` is `f a`, in canonical form. -/
def Cells.tabulate (bg : Nat → Byte) (size : Nat) (f : Nat → Byte) : Cells :=
  (List.range size).filterMap fun a => if f a = bg a then none else some (a, f a)

/-! ### The display plane, an address space of its own (spec/20_memory.md R60, R76) -/

/-- An unlisted cell of the plane holds 0 (log 7). -/
def planeGround : Nat → Byte := fun _ => 0

/-- Cell `k` of the plane. -/
def Plane.get (p : Cells) (k : Nat) : Byte := Cells.read planeGround p k

/-- The plane with cell `k` set to `b`. -/
def Plane.set (p : Cells) (k : Nat) (b : Byte) : Cells := Cells.write planeGround k b p

/-- Where `cell(px, py)` lies: row-major with stride `width` (R30). -/
def Plane.index (w : Width) (px py : Nat) : Nat := py * w.cols + px

/-- The live plane of width `w` whose `cell(px, py)` is `f px py`. -/
def Plane.tabulate (w : Width) (f : Nat → Nat → Byte) : Cells :=
  Cells.tabulate planeGround (w.liveCells) fun k => f (k % w.cols) (k / w.cols)

/-- Every live cell holds `b` (spec/45_display.md R170). Where `b` is what an unlisted cell holds, nothing is listed. -/
def Plane.fill (w : Width) (b : Byte) : Cells :=
  if b = 0 then [] else (List.range (w.liveCells)).map fun k => (k, b)

/-- The canonical form of the live plane. -/
def Plane.wf (w : Width) (p : Cells) : Bool := Cells.wfFrom planeGround (w.liveCells) 0 p

/-! ### Main memory (spec/20_memory.md) -/

/-- Addresses are reduced modulo 4096 immediately before the access (R61). -/
def maskAddr (a : Nat) : Nat := a % 4096

/-- The byte a reset leaves at address `a` (spec/10_state.md R41, R67, R77): the font at 0..79, the image from
0x200 on (its first 3584 bytes), 0 elsewhere. It is what an unlisted address of memory reads as (log 5). -/
def resetByte (c : Config) (a : Nat) : Byte :=
  if h : a < 80 then c.font[a]
  else if progBase.toNat ≤ a ∧ a < 4096 then c.image.getD (a - progBase.toNat) 0
  else 0

/-- `memory[a]` for the masked address of `a` (R62). -/
def Memory.read (c : Config) (m : Cells) (a : Nat) : Byte := Cells.read (resetByte c) m (maskAddr a)

/-- `memory[a]` set to `b`, for the masked address of `a` (R62). -/
def Memory.write (c : Config) (m : Cells) (a : Nat) (b : Byte) : Cells :=
  Cells.write (resetByte c) (maskAddr a) b m

/-- The bytes stored one after another from address `a` on, each address masked by itself (R66, R150). -/
def Cells.storeMasked (bg : Nat → Byte) : Cells → Nat → List Byte → Cells
  | m, _, [] => m
  | m, a, b :: bs => Cells.storeMasked bg (Cells.write bg (maskAddr a) b m) (a + 1) bs

/-- `memory[a]`, `memory[a + 1]`, … set to the bytes of a list (R62, R66). -/
def Memory.store (c : Config) (m : Cells) (a : Nat) (bs : List Byte) : Cells :=
  Cells.storeMasked (resetByte c) m a bs

/-- The canonical form of main memory. -/
def Memory.wf (c : Config) (m : Cells) : Bool := Cells.wfFrom (resetByte c) 4096 0 m

end Sys2Proof.Machine
end

