-- ==== Sys2Proof/Machine/State.lean ====
section
/-! DEFINITION. The state of the machine as plain data (spec/10_state.md), the reasons a step can stop, and the
state right after reset (R41). INVENTORY.md lists each field with its rule and its reset value. -/

namespace Sys2Proof.Machine

/-- The run status of the core (R34). -/
inductive Status where
  | running
  | exited
  | unsupported
  /-- The 16 offending opcode bits (R201). -/
  | invalid (op : Word)
deriving DecidableEq, Repr

/-- An event output (R39). -/
inductive Event where
  /-- The tone starts (R28). -/
  | beginTone
  /-- The tone stops (R28). -/
  | endTone
  /-- The width mode was set (R171). -/
  | resize (w : Width)
  /-- The frequency hint, the raw byte of `V0` (R103). -/
  | setFrequency (v : Byte)
  /-- A reset asks for the image (R230). -/
  | loadProgram
  /-- `Refresh` shows the live cells, row by row, and the width (R214). -/
  | draw (cells : List Byte) (w : Width)
deriving DecidableEq, Repr

/-- The machine. -/
structure State where
  /-- `V0`..`VF` (R20); `VF` is also the flag (R21). -/
  v         : Vector Byte 16
  /-- `I` (R22). -/
  i         : Word
  /-- `PC` (R23). -/
  pc        : Word
  /-- `SP`, the next free slot of the call stack (R24). -/
  sp        : Nibble
  /-- The call stack, 16 slots (R25). -/
  stack     : Vector Word 16
  /-- `DT`, the delay timer (R26). -/
  dt        : Byte
  /-- `ST`, the sound timer (R27). -/
  st        : Byte
  /-- The tone output (R28). -/
  tone      : Bool
  /-- Main memory, 4096 bytes (R29): the cells that differ from `resetByte` (log 5). -/
  memory    : Cells
  /-- The live cells of the display plane (R30): those that differ from 0 (log 7). -/
  plane     : Cells
  /-- The width mode (R31). -/
  width     : Width
  /-- The foreground colour byte (R32). -/
  fg        : Byte
  /-- The background colour byte (R32). -/
  bg        : Byte
  /-- The plane changed since the last refresh (R33). -/
  dirty     : Bool
  /-- The run status (R34). -/
  status    : Status
  /-- The events of the last transition, in the order emitted (R39, log 8). -/
  events    : List Event
  /-- The parameters of the session and its image (R4, R38, log 2, log 3). -/
  config    : Config
  /-- The model's own: the inputs the host has lined up, the next step's first (log 1). -/
  inputs    : List Inputs
  /-- The model's own: how many steps have sampled their inputs (log 1). -/
  stepCount : Nat
deriving DecidableEq, Repr

/-- The reasons a step stops with a fault: NONE. The spec says that no access can fail (spec/20_memory.md R62), and
each of its three conditions leaves a state (spec/60_exceptions.md R204), so a condition is a next state (log 6). -/
inductive Fault where
deriving DecidableEq, Repr

/-- The reasons a step is refused. -/
inductive Refusal where
  /-- An instruction that has no meaning yet: raised by `exec` only. Safe: nothing can be proved of it. No arm of
  `exec` raises it now. -/
  | notModelled (mnemonic : String)
deriving DecidableEq, Repr

/-- The state after the session's first `Reset` with an empty image and the default parameters
(spec/10_state.md R41, spec/70_reset_and_hazards.md R230). Memory lists nothing: it reads as `resetByte` says. -/
def State.reset : State where
  v         := Vector.replicate 16 0
  i         := 0
  pc        := progBase
  sp        := 0
  stack     := Vector.replicate 16 0
  dt        := 0
  st        := 0
  tone      := false
  memory    := []
  plane     := Plane.fill resetWidth resetBg
  width     := resetWidth
  fg        := resetFg
  bg        := resetBg
  dirty     := true
  status    := .running
  events    := [.loadProgram]
  config    := defaultConfig
  inputs    := []
  stepCount := 0

end Sys2Proof.Machine
end

