-- ==== Sys2Proof/Machine/Ops.lean ====
section
/-! DEFINITION. The named operations over the state that the meanings share: registers, memory, the program counter,
the call stack, timers, the plane, reset, raising a condition (what this machine has for an exception,
spec/60_exceptions.md R204, R208), fetch, and what a step does around its instruction. -/

namespace Sys2Proof.Machine

/-! ### General registers (spec/10_state.md R20) -/

/-- `V[r]`. -/
def State.reg (s : State) (r : Reg) : Byte := s.v[r]

/-- `V[r] <- b`. -/
def State.setReg (r : Reg) (b : Byte) (s : State) : State := { s with v := s.v.set r b }

/-- `VF`, the flag register (R21). -/
def vf : Reg := 15

/-! ### The inputs of this step (R35 to R37) -/

/-- The inputs this step samples: the ones the host lined up, or free ones (log 1). -/
def State.input (s : State) : Inputs := s.inputs.headD (Config.freeInputs s.stepCount)

/-! ### Events (R39) -/

/-- `emit`: the events come after those already emitted in this transition. -/
def State.emit (es : List Event) (s : State) : State := { s with events := s.events ++ es }

/-! ### The program counter (R23; spec/40_control_flow.md R100, R120) -/

/-- `PC <- PC + 2`, modulo 65536. -/
def State.advance (s : State) : State := { s with pc := s.pc + 2 }

/-- `PC <- target`. -/
def State.jump (target : Word) (s : State) : State := { s with pc := target }

/-- `PC <- PC + 4` when the condition holds, else `PC <- PC + 2` (R120). -/
def State.skipIf (c : Bool) (s : State) : State := { s with pc := if c then s.pc + 4 else s.pc + 2 }

/-! ### The index register (R22) -/

/-- `I <- a`. -/
def State.setIndex (a : Word) (s : State) : State := { s with i := a }

/-! ### The call stack (R24, R25; the order of the two actions is the spec's, log 12) -/

/-- `stack[SP] <- a`, then `SP <- SP + 1` modulo 16 (R109). -/
def State.push (a : Word) (s : State) : State :=
  { s with stack := s.stack.set s.sp.toNat a, sp := s.sp + 1 }

/-- `SP <- SP - 1` modulo 16, then the slot just uncovered; the slot keeps its value (R101). -/
def State.topOfStack (s : State) : Word := s.stack[(s.sp - 1).toNat]

/-- The stack pointer after a pop (R101). -/
def State.pop (s : State) : State := { s with sp := s.sp - 1 }

/-! ### Main memory (spec/20_memory.md R61, R62) -/

/-- `MemRead(a, 1)`. -/
def State.memRead (s : State) (a : Nat) : Byte := Memory.read s.config s.memory a

/-- `MemWrite(a, 1, b)`, `MemWrite(a + 1, 1, b')`, … for a list of bytes (R62, R66). -/
def State.memStore (a : Nat) (bs : List Byte) (s : State) : State :=
  { s with memory := Memory.store s.config s.memory a bs }

/-- `n` registers from `V0` up, register `k` with `f k`, in ascending order (spec/43_index_memory.md R156). -/
def loadUpTo (f : Nat → Byte) : Nat → Vector Byte 16 → Vector Byte 16
  | 0, v => v
  | n + 1, v => (loadUpTo f n v).setIfInBounds n (f n)

/-- `V[k] <- f k` for `k` in 0..x. -/
def State.loadRegsTo (x : Reg) (f : Nat → Byte) (s : State) : State :=
  { s with v := loadUpTo f (x.val + 1) s.v }

/-! ### Timers and tone (R26 to R28; spec/60_exceptions.md R211, spec/44_timers_keys.md R163) -/

/-- `DT <- b`. -/
def State.setDelay (b : Byte) (s : State) : State := { s with dt := b }

/-- The tone after `ST` goes from `old` to `new` by an instruction: the edges drive it (R28, R163). -/
def toneAfter (old new : Byte) (tone : Bool) : Bool :=
  if old = 0 ∧ new ≠ 0 then true else if old ≠ 0 ∧ new = 0 then false else tone

/-- The event of that edge, if any (R28, R163). -/
def toneEvents (old new : Byte) : List Event :=
  if old = 0 ∧ new ≠ 0 then [.beginTone] else if old ≠ 0 ∧ new = 0 then [.endTone] else []

/-- `ST <- b` with the tone's edge (R163). -/
def State.setSound (b : Byte) (s : State) : State :=
  { s with st := b, tone := toneAfter s.st b s.tone, events := s.events ++ toneEvents s.st b }

/-- A timer after the gate: one less on a tick, with a floor at 0 (R211). -/
def timerAfter (tick : Bool) (t : Byte) : Byte := if tick ∧ t ≠ 0 then t - 1 else t

/-- The gate brings the sound timer to exactly 0 (R211). -/
def soundStops (tick : Bool) (t : Byte) : Bool := tick && t != 0 && t - 1 == 0

/-- The timer gate (R211). -/
def State.timerGate (s : State) : State :=
  { s with
    dt := timerAfter s.input.tick s.dt
    st := timerAfter s.input.tick s.st
    tone := if soundStops s.input.tick s.st then false else s.tone
    events := s.events ++ (if soundStops s.input.tick s.st then [.endTone] else []) }

/-! ### The display plane (spec/45_display.md R170 to R172) -/

/-- `cell(px, py)`, used only inside the live region (R76). -/
def State.cell (s : State) (px py : Nat) : Byte := Plane.get s.plane (Plane.index s.width px py)

/-- `Clear` (R170). -/
def State.clear (s : State) : State := { s with plane := Plane.fill s.width s.bg, dirty := true }

/-- `Resize(w)` (R171): the new width, `Clear` over the new live region, the event. -/
def State.resize (w : Width) (s : State) : State :=
  { s with width := w, plane := Plane.fill w s.bg, dirty := true, events := s.events ++ [.resize w] }

/-- A scroll: every live cell anew from the plane before the instruction (R174 to R176). -/
def State.redraw (f : Nat → Nat → Byte) (s : State) : State :=
  { s with plane := Plane.tabulate s.width f, dirty := true }

/-- What `Plot` does to a live cell `c`: its new value, and the collision bit (R172). -/
def plotCell (mode : DrawMode) (fg bg c : Byte) : Byte × Bool :=
  match mode with
  | .xor => (c ^^^ 1, c.getLsbD 0)
  | .overwrite => if c ≠ fg then (fg, false) else (bg, true)

/-- What a plot depends on besides the plane: the drawing mode, the colours and the width (R172). -/
structure Pen where
  mode  : DrawMode
  fg    : Byte
  bg    : Byte
  width : Width
deriving DecidableEq, Repr

/-- The pen of a state. -/
def State.pen (s : State) : Pen := ⟨s.config.drawMode, s.fg, s.bg, s.width⟩

/-- `Plot(px, py)` on the plane `p`: its collision bit too; off-plane nothing happens (R172). -/
def plot (pen : Pen) (p : Cells) (px py : Nat) : Cells × Bool :=
  if pen.width.onPlane px py then
    let c := plotCell pen.mode pen.fg pen.bg (Plane.get p (Plane.index pen.width px py))
    (Plane.set p (Plane.index pen.width px py) c.1, c.2)
  else (p, false)

/-- `Plot` for each pixel in order, the collision bits joined by or (R180). -/
def plotAll (pen : Pen) : List (Nat × Nat) → Cells → Cells × Bool
  | [], p => (p, false)
  | (px, py) :: rest, p =>
    let first := plot pen p px py
    let others := plotAll pen rest first.1
    (others.1, first.2 || others.2)

/-- The plane after the pixels are plotted, marked dirty (R180). -/
def State.plotPixels (pixels : List (Nat × Nat)) (s : State) : State :=
  { s with plane := (plotAll s.pen pixels s.plane).1, dirty := true }

/-- Did any of the pixels collide? (R180) -/
def State.collides (pixels : List (Nat × Nat)) (s : State) : Bool := (plotAll s.pen pixels s.plane).2

/-- `fg <- f`, `bg <- b` (R179). -/
def State.setColours (f b : Byte) (s : State) : State := { s with fg := f, bg := b }

/-! ### Conditions: what this machine has in place of exceptions (spec/60_exceptions.md R200 to R209) -/

/-- `raise`: the status takes the condition and nothing else changes; no state is saved, no vector is fetched and
`PC` stays (R204, R208). There is no return from a condition but a reset (R209). -/
def State.raise (c : Status) (s : State) : State := { s with status := c }

/-- The result of a step (R7, R200). -/
inductive Result where
  | ok
  | exit
  | unsupported
  | invalid (op : Word)
deriving DecidableEq, Repr

/-- The result that a step which ends in this status returns: the latched condition, or `Ok` (R34, R200, R205). -/
def Status.result : Status → Result
  | .running => .ok
  | .exited => .exit
  | .unsupported => .unsupported
  | .invalid op => .invalid op

/-- The numeric code of a result (R200). -/
def Result.code : Result → Nat
  | .ok => 0
  | .exit => 1
  | .unsupported => 2
  | .invalid _ => 3

/-! ### Reset (spec/70_reset_and_hazards.md R230, R231) -/

/-- `Reset(image)` with the session's own image. Nothing survives but what is not the machine's: the session's
parameters, the host's inputs, and the events this transition has already emitted. -/
def State.restart (s : State) : State :=
  { State.reset with
    config := s.config
    events := s.events ++ (if s.tone then [.endTone] else []) ++ [.loadProgram]
    inputs := s.inputs
    stepCount := s.stepCount }

/-! ### Fetch, and what a step does around its instruction (R80, R100, R205) -/

/-- `MemRead(PC, 2)`: big-endian, each of the two addresses masked by itself (R63, R80). -/
def State.fetch (s : State) : Word :=
  bytesToOpcode (s.memRead s.pc.toNat) (s.memRead (s.pc.toNat + 1))

/-- Before the instruction: a step's events are a list of its own (R39, log 8). -/
def State.beginStep (s : State) : State := { s with events := [] }

/-- The step's inputs are used up (log 1). -/
def State.nextInputs (s : State) : State := { s with inputs := s.inputs.tail, stepCount := s.stepCount + 1 }

/-- The timer gate runs at the end of a step that returns `Ok`, and of no other (R100, R211, R204). -/
def State.gateIfRunning (s : State) : State :=
  match s.status with
  | .running => s.timerGate
  | .exited | .unsupported | .invalid _ => s

/-- After the instruction: the timer gate, and the inputs are used up (R100). -/
def State.endStep (s : State) : State := s.gateIfRunning.nextInputs

/-- `op` stored where the next fetch reads it, and the core running: what a fetch needs (log 11). -/
def State.placeOpcode (op : Word) (s : State) : State :=
  (s.memStore s.pc.toNat [opcodeHigh op, opcodeLow op]).raise .running

end Sys2Proof.Machine
end

