-- ==== Sys2Proof/Machine/Operands.lean ====
section
/-! DEFINITION. The operand forms (spec/30_encoding.md R83): immediates, the one addressing mode of memory
(spec/43_index_memory.md R150), and the operands that single instructions derive from a register or an input. -/

namespace Sys2Proof.Machine

/-- `nnn` as a 16-bit value: zero-extended, not scaled (R83). -/
def immAddr (nnn : Imm12) : Word := nnn.setWidth 16

/-- A register byte as a 16-bit value: nothing is signed (R5). -/
def wide (b : Byte) : Word := b.setWidth 16

/-- `I + k`, formed without truncation; the access masks it (R61, R150). -/
def State.ea (s : State) (k : Nat) : Nat := s.i.toNat + k

/-- The source of a shift: `V[x]`, or `V[y]`, as the parameter `SHIFT_SRC` says (spec/42_alu.md R138). -/
def State.shiftSource (s : State) (x y : Reg) : Byte :=
  match s.config.shiftSrc with
  | .vx => s.reg x
  | .vy => s.reg y

/-- The key that `Ex9E` and `ExA1` test: the low 4 bits of `V[x]` (spec/41_skips.md R125). -/
def State.keyDown (s : State) (x : Reg) : Bool := s.input.keys.getLsbD (s.reg x &&& 0xF).toNat

/-- The least key index that is down, if any (spec/44_timers_keys.md R161). -/
def lowestKey (keys : BitVec 16) : Option Reg := (List.finRange 16).find? fun k => keys.getLsbD k.val

/-- The random byte of this step, 0 to 254 (spec/42_alu.md R141). -/
def State.randomByte (s : State) : Byte := BitVec.ofNat 8 s.input.rnd.val

/-- The address of the glyph of a digit: 5 bytes a glyph from address 0, unmasked (spec/43_index_memory.md R153). -/
def glyphAddr (digit : Byte) : Word := 5 * wide digit

/-- Hundreds, tens and ones of a byte (R154). -/
def bcdDigits (b : Byte) : List Byte := [b / 100, (b / 10) % 10, b % 10]

/-- `V[0]`..`V[x]`, x included (R155). -/
def State.regsUpTo (s : State) (x : Reg) : List Byte := s.v.toList.take (x.val + 1)

/-- The rows, columns and bytes a row of a sprite (spec/45_display.md R180). -/
structure SpriteShape where
  rows : Nat
  cols : Nat
  bytesPerRow : Nat
deriving DecidableEq, Repr

/-- `n` = 0 in 128-wide mode is the 16x16 sprite; otherwise `n` rows of one byte, none where `n` = 0 (R180). -/
def spriteShape (w : Width) (n : Nibble) : SpriteShape :=
  if n = 0 ∧ w = .w128 then ⟨16, 16, 2⟩ else ⟨n.toNat, 8, 1⟩

/-- The sprite's bit in row `r`, column `c`: bit 7 of a byte is its leftmost pixel (R180). -/
def State.spriteBit (s : State) (shape : SpriteShape) (r c : Nat) : Bool :=
  (s.memRead (s.ea (r * shape.bytesPerRow + c / 8))).getLsbD (7 - c % 8)

/-- The lit pixels of the sprite that starts at `(x0, y0)`, row by row; the sums are naturals and do not wrap
(R180). -/
def State.spritePixels (s : State) (shape : SpriteShape) (x0 y0 : Nat) : List (Nat × Nat) :=
  (List.range shape.rows).flatMap fun r =>
    (List.range shape.cols).filterMap fun c =>
      if s.spriteBit shape r c then some (x0 + c, y0 + r) else none

end Sys2Proof.Machine
end

