-- ==== Sys2Proof/Machine/Flags.lean ====
section
/-! DEFINITION. Every flag the machine computes into `VF` (spec/10_state.md R21, R42; spec/42_alu.md R136 to R143),
and the one order in which result and flag are written. Each flag is exactly 0 or 1. -/

namespace Sys2Proof.Machine

/-- A flag as the number 0 or 1 (R21). -/
def flagByte (b : Bool) : Byte := if b then 1 else 0

/-- The carry of an addition: 1 iff the true sum is at least 256 (R136, R142). -/
def carryFlag (a b : Byte) : Byte := flagByte (256 ≤ a.toNat + b.toNat)

/-- The flag of the subtraction `a - b`: 1 iff the true difference is not negative (R137, R139, R142). -/
def noBorrowFlag (a b : Byte) : Byte := flagByte (0 ≤ (a.toNat : Int) - (b.toNat : Int))

/-- The bit a right shift drops (R138). -/
def shiftedOutRight (a : Byte) : Byte := flagByte (a.getLsbD 0)

/-- The bit a left shift drops (R140). -/
def shiftedOutLeft (a : Byte) : Byte := flagByte (a.getLsbD 7)

/-- The result into `V[x]`, then the flag into `VF`, written last (R143): with `x` = 15 the result is lost. -/
def State.setResultAndFlag (x : Reg) (result flag : Byte) (s : State) : State :=
  (s.setReg x result).setReg vf flag

end Sys2Proof.Machine
end

