-- ==== Sys2Proof/Machine/Alu.lean ====
section
/-! DEFINITION. Register load, arithmetic, logic and random (spec/42_alu.md). Both operands are read before anything
is written, and `VF` is written last (R143). -/

namespace Sys2Proof.Machine

open Host (Outcome)

/-- `6xkk` LD Vx, kk (R130). -/
def execLdImm (x : Reg) (kk : Byte) (s : State) : Outcome State Fault Refusal := .next (s.setReg x kk).advance

/-- `7xkk` ADD Vx, kk: the carry is discarded (R131). -/
def execAddImm (x : Reg) (kk : Byte) (s : State) : Outcome State Fault Refusal :=
  .next (s.setReg x (s.reg x + kk)).advance

/-- `8xy0` LD Vx, Vy (R132). -/
def execLdReg (x y : Reg) (s : State) : Outcome State Fault Refusal := .next (s.setReg x (s.reg y)).advance

/-- `8xy1` OR Vx, Vy: `VF` is not written as a flag (R133). -/
def execOr (x y : Reg) (s : State) : Outcome State Fault Refusal :=
  .next (s.setReg x (s.reg x ||| s.reg y)).advance

/-- `8xy2` AND Vx, Vy (R134). -/
def execAnd (x y : Reg) (s : State) : Outcome State Fault Refusal :=
  .next (s.setReg x (s.reg x &&& s.reg y)).advance

/-- `8xy3` XOR Vx, Vy (R135). -/
def execXor (x y : Reg) (s : State) : Outcome State Fault Refusal :=
  .next (s.setReg x (s.reg x ^^^ s.reg y)).advance

/-- `8xy4` ADD Vx, Vy: the carry into `VF` (R136). -/
def execAddReg (x y : Reg) (s : State) : Outcome State Fault Refusal :=
  .next (s.setResultAndFlag x (s.reg x + s.reg y) (carryFlag (s.reg x) (s.reg y))).advance

/-- `8xy5` SUB Vx, Vy: `VF` = 1 when no borrow occurred, equality included (R137; spec/90_conflicts.md C2). -/
def execSub (x y : Reg) (s : State) : Outcome State Fault Refusal :=
  .next (s.setResultAndFlag x (s.reg x - s.reg y) (noBorrowFlag (s.reg x) (s.reg y))).advance

/-- `8xy6` SHR Vx, Vy (R138). -/
def execShr (x y : Reg) (s : State) : Outcome State Fault Refusal :=
  .next (s.setResultAndFlag x (s.shiftSource x y >>> 1) (shiftedOutRight (s.shiftSource x y))).advance

/-- `8xy7` SUBN Vx, Vy (R139). -/
def execSubn (x y : Reg) (s : State) : Outcome State Fault Refusal :=
  .next (s.setResultAndFlag x (s.reg y - s.reg x) (noBorrowFlag (s.reg y) (s.reg x))).advance

/-- `8xyE` SHL Vx, Vy (R140). -/
def execShl (x y : Reg) (s : State) : Outcome State Fault Refusal :=
  .next (s.setResultAndFlag x (s.shiftSource x y <<< 1) (shiftedOutLeft (s.shiftSource x y))).advance

/-- `Cxkk` RND Vx, kk (R141). -/
def execRnd (x : Reg) (kk : Byte) (s : State) : Outcome State Fault Refusal :=
  .next (s.setReg x (s.randomByte &&& kk)).advance

end Sys2Proof.Machine
end

