-- ==== Sys2Proof/Machine/ControlFlow.lean ====
section
/-! DEFINITION. Control flow and the host hooks of family 0 (spec/40_control_flow.md), and the three unsupported
encodings (spec/60_exceptions.md R202). -/

namespace Sys2Proof.Machine

open Host (Outcome)

/-- `00EE` RET: `SP <- SP - 1`, then `PC <- stack[SP]` (R101). -/
def execRet (s : State) : Outcome State Fault Refusal := .next (s.pop.jump s.topOfStack)

/-- `00FD` EXIT: raises `Exit` (R102, R203). -/
def execExit (s : State) : Outcome State Fault Refusal := .next (s.raise .exited)

/-- `0100` SYS 0x100: the frequency hint, the raw byte of `V0` (R103). -/
def execSys100 (s : State) : Outcome State Fault Refusal := .next (s.emit [.setFrequency (s.reg 0)]).advance

/-- `0101` SYS 0x101: soft reset; `PC` is 0x200 afterwards, not 0x202 (R105). -/
def execSys101 (s : State) : Outcome State Fault Refusal := .next s.restart

/-- `1nnn` JP nnn (R108). -/
def execJp (nnn : Imm12) (s : State) : Outcome State Fault Refusal := .next (s.jump (immAddr nnn))

/-- `2nnn` CALL nnn: pushes the address of the next instruction (R109). -/
def execCall (nnn : Imm12) (s : State) : Outcome State Fault Refusal :=
  .next ((s.push (s.pc + 2)).jump (immAddr nnn))

/-- `Bnnn` JP V0, nnn: the sum is modulo 65536 and is not reduced to 12 bits (R104). -/
def execJpV0 (nnn : Imm12) (s : State) : Outcome State Fault Refusal :=
  .next (s.jump (immAddr nnn + wide (s.reg 0)))

/-- `Fx30`: raises `Unsupported`, whatever `x` (R87, R202). -/
def execUnsupportedFx30 (_x : Reg) (s : State) : Outcome State Fault Refusal := .next (s.raise .unsupported)

/-- `Fx75`: raises `Unsupported`, whatever `x` (R87, R202). -/
def execUnsupportedFx75 (_x : Reg) (s : State) : Outcome State Fault Refusal := .next (s.raise .unsupported)

/-- `Fx85`: raises `Unsupported`, whatever `x` (R87, R202). -/
def execUnsupportedFx85 (_x : Reg) (s : State) : Outcome State Fault Refusal := .next (s.raise .unsupported)

/-- An opcode that matches no row: raises `Invalid(op)` (R107, R201). -/
def execInvalid (op : Word) (s : State) : Outcome State Fault Refusal := .next (s.raise (.invalid op))

end Sys2Proof.Machine
end

