-- ==== Sys2Proof/Machine/Display.lean ====
section
/-! DEFINITION. The display instructions (spec/45_display.md). -/

namespace Sys2Proof.Machine

open Host (Outcome)

/-- `00E0` CLS (R173). -/
def execCls (s : State) : Outcome State Fault Refusal := .next s.clear.advance

/-- `00Cn` SCD n: down by `n` rows, the top rows filled with `bg` (R174). -/
def execScd (n : Nibble) (s : State) : Outcome State Fault Refusal :=
  .next (s.redraw fun px py => if n.toNat ≤ py then s.cell px (py - n.toNat) else s.bg).advance

/-- `00FB` SCR: right by 4 pixels (R175). -/
def execScr (s : State) : Outcome State Fault Refusal :=
  .next (s.redraw fun px py => if 4 ≤ px then s.cell (px - 4) py else s.bg).advance

/-- `00FC` SCL: left by 4 pixels (R176). -/
def execScl (s : State) : Outcome State Fault Refusal :=
  .next (s.redraw fun px py => if px + 4 < s.width.cols then s.cell (px + 4) py else s.bg).advance

/-- `00FE` LOW (R177). -/
def execLow (s : State) : Outcome State Fault Refusal := .next (s.resize .w64).advance

/-- `00FF` HIGH (R178). -/
def execHigh (s : State) : Outcome State Fault Refusal := .next (s.resize .w128).advance

/-- `0102` SYS 0x102: the colours; no repaint, `dirty` not set (R179). -/
def execSys102 (s : State) : Outcome State Fault Refusal := .next (s.setColours (s.reg 0) (s.reg 1)).advance

/-- The lit pixels that `Dxyn` plots (R180). -/
def State.drawnPixels (s : State) (x y : Reg) (n : Nibble) : List (Nat × Nat) :=
  s.spritePixels (spriteShape s.width n) (s.reg x).toNat (s.reg y).toNat

/-- `Dxyn` DRW Vx, Vy, n: the coordinates are read before `VF` is written, last, with the collision bit (R180). -/
def execDrw (x y : Reg) (n : Nibble) (s : State) : Outcome State Fault Refusal :=
  .next ((s.plotPixels (s.drawnPixels x y n)).setReg vf (flagByte (s.collides (s.drawnPixels x y n)))).advance

end Sys2Proof.Machine
end

