-- ==== Sys2Proof/Machine/IndexMemory.lean ====
section
/-! DEFINITION. The index register, loads and stores (spec/43_index_memory.md). No load or store changes `I` (R150). -/

namespace Sys2Proof.Machine

open Host (Outcome)

/-- `Annn` LD I, nnn (R151). -/
def execLdI (nnn : Imm12) (s : State) : Outcome State Fault Refusal := .next (s.setIndex (immAddr nnn)).advance

/-- `Fx1E` ADD I, Vx: modulo 65536, `VF` not written (R152). -/
def execAddI (x : Reg) (s : State) : Outcome State Fault Refusal :=
  .next (s.setIndex (s.i + wide (s.reg x))).advance

/-- `Fx29` LD F, Vx (R153). -/
def execLdF (x : Reg) (s : State) : Outcome State Fault Refusal := .next (s.setIndex (glyphAddr (s.reg x))).advance

/-- `Fx33` LD B, Vx (R154). -/
def execLdB (x : Reg) (s : State) : Outcome State Fault Refusal :=
  .next (s.memStore (s.ea 0) (bcdDigits (s.reg x))).advance

/-- `Fx55` LD [I], Vx (R155). -/
def execStoreRegs (x : Reg) (s : State) : Outcome State Fault Refusal :=
  .next (s.memStore (s.ea 0) (s.regsUpTo x)).advance

/-- `Fx65` LD Vx, [I] (R156). -/
def execLoadRegs (x : Reg) (s : State) : Outcome State Fault Refusal :=
  .next (s.loadRegsTo x fun k => s.memRead (s.ea k)).advance

end Sys2Proof.Machine
end

