-- ==== Sys2Proof/Machine/Skips.lean ====
section
/-! DEFINITION. Conditional skips (spec/41_skips.md). A skip passes over exactly one instruction (R120). -/

namespace Sys2Proof.Machine

open Host (Outcome)

/-- `3xkk` SE Vx, kk (R121). -/
def execSeImm (x : Reg) (kk : Byte) (s : State) : Outcome State Fault Refusal := .next (s.skipIf (s.reg x == kk))

/-- `4xkk` SNE Vx, kk (R122). -/
def execSneImm (x : Reg) (kk : Byte) (s : State) : Outcome State Fault Refusal := .next (s.skipIf (s.reg x != kk))

/-- `5xy0` SE Vx, Vy (R123). -/
def execSeReg (x y : Reg) (s : State) : Outcome State Fault Refusal := .next (s.skipIf (s.reg x == s.reg y))

/-- `9xy0` SNE Vx, Vy (R124). -/
def execSneReg (x y : Reg) (s : State) : Outcome State Fault Refusal := .next (s.skipIf (s.reg x != s.reg y))

/-- `Ex9E` SKP Vx: a level, not an edge (R125). -/
def execSkp (x : Reg) (s : State) : Outcome State Fault Refusal := .next (s.skipIf (s.keyDown x))

/-- `ExA1` SKNP Vx (R126). -/
def execSknp (x : Reg) (s : State) : Outcome State Fault Refusal := .next (s.skipIf (!s.keyDown x))

end Sys2Proof.Machine
end

