-- ==== Sys2Proof/Machine/TimersKeys.lean ====
section
/-! DEFINITION. Timers and the key wait (spec/44_timers_keys.md). The timer gate runs after the instruction, in
`State.endStep`. -/

namespace Sys2Proof.Machine

open Host (Outcome)

/-- `Fx07` LD Vx, DT (R160). -/
def execLdVxDt (x : Reg) (s : State) : Outcome State Fault Refusal := .next (s.setReg x s.dt).advance

/-- `Fx0A` LD Vx, K: the least key that is down; with none down nothing changes, `PC` included (R161). -/
def execLdVxK (x : Reg) (s : State) : Outcome State Fault Refusal :=
  .next (match lowestKey s.input.keys with
    | none => s
    | some k => (s.setReg x (BitVec.ofNat 8 k.val)).advance)

/-- `Fx15` LD DT, Vx (R162). -/
def execLdDtVx (x : Reg) (s : State) : Outcome State Fault Refusal := .next (s.setDelay (s.reg x)).advance

/-- `Fx18` LD ST, Vx, with the tone's edges (R163). -/
def execLdStVx (x : Reg) (s : State) : Outcome State Fault Refusal := .next (s.setSound (s.reg x)).advance

end Sys2Proof.Machine
end

