-- ==== Sys2Proof/Machine/HostTransitions.lean ====
section
/-! DEFINITION. The two transitions that belong to the host and not to the core (spec/00_scope.md R7, log 10): `Reset`
and `Refresh`. They happen between steps, never during one (spec/20_memory.md R73). -/

namespace Sys2Proof.Machine

/-- `Reset(image)` (spec/70_reset_and_hazards.md R230, R231): in any status, discarding everything. -/
def State.hostReset (image : List Byte) (s : State) : State :=
  State.restart { s with events := [], config := { s.config with image := image } }

/-- The live cells in order, `plane[0 .. width*height-1]` (spec/10_state.md R30). -/
def State.liveCells (s : State) : List Byte := (List.range s.width.liveCells).map (Plane.get s.plane)

/-- `Refresh` (spec/60_exceptions.md R214): the picture if the plane changed since the last one, then the flag is
cleared. It works on a halted core too (R205). -/
def State.refresh (s : State) : State :=
  { s with dirty := false, events := if s.dirty then [.draw s.liveCells s.width] else [] }

/-- The host puts the inputs of the next step in front of those it has lined up (R35 to R37). -/
def State.withInputs (inp : Inputs) (s : State) : State := { s with inputs := inp :: s.inputs }

end Sys2Proof.Machine
end

