-- ==== Sys2Proof/Machine/Step.lean ====
section
/-! DEFINITION. `Step` (spec/00_scope.md R7, spec/40_control_flow.md R100), the host's actions beside it, and how a
single instruction is placed for the next fetch. -/

namespace Sys2Proof.Machine

open Host (Outcome)

/-- Execute, for what the decoder read: an instruction, or the `Invalid(op)` of an opcode that is none (R100, R107,
R201). -/
def runDecoded (op : Word) (s : State) : Outcome State Fault Refusal :=
  match decodeWord op with
  | .ok i => exec i s
  | .error _ => execInvalid op s

/-- One step. A running core fetches, decodes and executes, and the timer gate ends the step (R100); a halted core
changes nothing (R205). Either way the step uses up its inputs (log 1, log 9). -/
def step (s : State) : Outcome State Fault Refusal :=
  match s.status with
  | .running =>
    match runDecoded s.fetch s.beginStep with
    | .next t => .next t.endStep
    | .fault r => .fault r
    | .refused r => .refused r
  | .exited => .next s.beginStep.endStep
  | .unsupported => .next s.beginStep.endStep
  | .invalid _ => .next s.beginStep.endStep

/-- What the host can do to the machine: call `Step` with its inputs, `Refresh`, or `Reset` (R7, R9). -/
inductive HostAction where
  | step (inp : Inputs)
  | refresh
  | reset (image : List Byte)
deriving DecidableEq, Repr

/-- `Step(state, keys, tick, rnd)`, `Refresh` and `Reset(image)` as the host calls them (R7). -/
def act (a : HostAction) (s : State) : Outcome State Fault Refusal :=
  match a with
  | .step inp => step (s.withInputs inp)
  | .refresh => .next s.refresh
  | .reset image => .next (s.hostReset image)

/-- `s` with the instruction whose table bits are `w` where `step` fetches next, and the core running (log 11). -/
def State.withFetchWord (s : State) (nbits w : Nat) : State := s.placeOpcode (tableOpcode nbits w)

end Sys2Proof.Machine
end

