-- ==== Sys2Proof/Laws/Cells.lean ====
section
/-! SUPPORT. What the byte spaces do: a read after a write, the canonical form and its preservation, and that a
canonical space is determined by its reads. -/

namespace Sys2Proof

@[simp] theorem Width.cols_w64 : Width.w64.cols = 64 := rfl
@[simp] theorem Width.cols_w128 : Width.w128.cols = 128 := rfl
@[simp] theorem Width.rows_w64 : Width.w64.rows = 32 := rfl
@[simp] theorem Width.rows_w128 : Width.w128.rows = 64 := rfl

theorem Width.cols_pos (w : Width) : 0 < w.cols := by cases w <;> simp
theorem Width.rows_pos (w : Width) : 0 < w.rows := by cases w <;> simp

end Sys2Proof

namespace Sys2Proof.Machine

section Cells

variable {bg : Nat → Byte} {size : Nat}

theorem Cells.read_cons (k : Nat) (c : Byte) (rest : Cells) (a : Nat) :
    Cells.read bg ((k, c) :: rest) a = if a = k then c else Cells.read bg rest a := rfl

theorem Cells.wfFrom_cons {lo k : Nat} {c : Byte} {rest : Cells} :
    Cells.wfFrom bg size lo ((k, c) :: rest) = true ↔
      lo ≤ k ∧ k < size ∧ c ≠ bg k ∧ Cells.wfFrom bg size (k + 1) rest = true := by
  simp [Cells.wfFrom, and_assoc]

/-- A lower start is a weaker demand. -/
theorem Cells.wfFrom_mono {lo lo' : Nat} {m : Cells} (hle : lo' ≤ lo)
    (h : Cells.wfFrom bg size lo m = true) : Cells.wfFrom bg size lo' m = true := by
  cases m with
  | nil => rfl
  | cons p rest =>
    obtain ⟨k, c⟩ := p
    rw [Cells.wfFrom_cons] at h ⊢
    exact ⟨hle.trans h.1, h.2⟩

/-- Below its first cell a canonical space reads as an unlisted address. -/
theorem Cells.read_below {lo : Nat} {m : Cells} {a : Nat} (h : Cells.wfFrom bg size lo m = true) (ha : a < lo) :
    Cells.read bg m a = bg a := by
  induction m generalizing lo with
  | nil => rfl
  | cons p rest ih =>
    obtain ⟨k, c⟩ := p
    rw [Cells.wfFrom_cons] at h
    rw [Cells.read_cons, if_neg (by omega), ih h.2.2.2 (by omega)]

/-- From `size` on a canonical space reads as an unlisted address. -/
theorem Cells.read_above {lo : Nat} {m : Cells} {a : Nat} (h : Cells.wfFrom bg size lo m = true) (ha : size ≤ a) :
    Cells.read bg m a = bg a := by
  induction m generalizing lo with
  | nil => rfl
  | cons p rest ih =>
    obtain ⟨k, c⟩ := p
    rw [Cells.wfFrom_cons] at h
    rw [Cells.read_cons, if_neg (by omega), ih h.2.2.2]

/-- A write keeps the canonical form. -/
theorem Cells.write_wfFrom {lo : Nat} {m : Cells} {a : Nat} {b : Byte} (h : Cells.wfFrom bg size lo m = true)
    (hlo : lo ≤ a) (ha : a < size) : Cells.wfFrom bg size lo (Cells.write bg a b m) = true := by
  induction m generalizing lo with
  | nil =>
    unfold Cells.write
    split
    · rfl
    · rw [Cells.wfFrom_cons]; exact ⟨hlo, ha, ‹_›, rfl⟩
  | cons p rest ih =>
    obtain ⟨k, c⟩ := p
    have hw := Cells.wfFrom_cons.mp h
    unfold Cells.write
    split_ifs with h1 h2 h3 h4
    · exact h
    · rw [Cells.wfFrom_cons]
      exact ⟨hlo, ha, h2, Cells.wfFrom_cons.mpr ⟨h1, hw.2⟩⟩
    · exact Cells.wfFrom_mono (by omega) hw.2.2.2
    · rw [Cells.wfFrom_cons]
      exact ⟨hlo, ha, h4, by subst h3; exact hw.2.2.2⟩
    · rw [Cells.wfFrom_cons]
      exact ⟨hw.1, hw.2.1, hw.2.2.1, ih hw.2.2.2 (by omega)⟩

/-- One read after one write, in a canonical space: the byte written at its address, everything else as before. -/
theorem Cells.read_write {lo : Nat} {m : Cells} (h : Cells.wfFrom bg size lo m = true) (a : Nat) (b : Byte)
    (a' : Nat) : Cells.read bg (Cells.write bg a b m) a' = if a' = a then b else Cells.read bg m a' := by
  induction m generalizing lo with
  | nil =>
    unfold Cells.write
    by_cases h1 : b = bg a
    · rw [if_pos h1]
      by_cases h2 : a' = a
      · rw [if_pos h2, h2, h1]; rfl
      · rw [if_neg h2]
    · rw [if_neg h1, Cells.read_cons]
  | cons p rest ih =>
    obtain ⟨k, c⟩ := p
    have hw := Cells.wfFrom_cons.mp h
    unfold Cells.write
    by_cases h1 : a < k
    · rw [if_pos h1]
      have hbelow : Cells.read bg ((k, c) :: rest) a = bg a :=
        Cells.read_below (lo := k) (Cells.wfFrom_cons.mpr ⟨le_refl k, hw.2⟩) h1
      by_cases h2 : b = bg a
      · rw [if_pos h2]
        by_cases h3 : a' = a
        · rw [if_pos h3, h3, hbelow, h2]
        · rw [if_neg h3]
      · rw [if_neg h2, Cells.read_cons]
    · rw [if_neg h1]
      by_cases h2 : a = k
      · subst h2
        have hbelow : Cells.read bg rest a = bg a := Cells.read_below hw.2.2.2 (by omega)
        rw [if_pos rfl, Cells.read_cons]
        by_cases h3 : b = bg a
        · rw [if_pos h3]
          by_cases h4 : a' = a
          · rw [if_pos h4, h4, hbelow, h3]
          · rw [if_neg h4, if_neg h4]
        · rw [if_neg h3, Cells.read_cons]
          by_cases h4 : a' = a
          · rw [if_pos h4, if_pos h4]
          · rw [if_neg h4, if_neg h4, if_neg h4]
      · rw [if_neg h2, Cells.read_cons, Cells.read_cons, ih hw.2.2.2]
        by_cases h3 : a' = k
        · rw [if_pos h3, if_pos h3, if_neg (by omega)]
        · rw [if_neg h3, if_neg h3]

/-- A canonical space is determined by its reads: equal spaces are equal data. -/
theorem Cells.eq_of_read_eq {lo : Nat} {m m' : Cells} (h : Cells.wfFrom bg size lo m = true)
    (h' : Cells.wfFrom bg size lo m' = true) (hr : ∀ a, Cells.read bg m a = Cells.read bg m' a) : m = m' := by
  induction m generalizing lo m' with
  | nil =>
    cases m' with
    | nil => rfl
    | cons p rest =>
      obtain ⟨k, c⟩ := p
      have := hr k
      rw [Cells.read_cons, if_pos rfl] at this
      exact absurd this.symm (Cells.wfFrom_cons.mp h').2.2.1
  | cons p rest ih =>
    obtain ⟨k, c⟩ := p
    have hw := Cells.wfFrom_cons.mp h
    cases m' with
    | nil =>
      have := hr k
      rw [Cells.read_cons, if_pos rfl] at this
      exact absurd this hw.2.2.1
    | cons p' rest' =>
      obtain ⟨k', c'⟩ := p'
      have hw' := Cells.wfFrom_cons.mp h'
      have hk : k = k' := by
        rcases Nat.lt_trichotomy k k' with hlt | heq | hgt
        · have h1 := hr k
          rw [Cells.read_cons, if_pos rfl,
            Cells.read_below (lo := k') (Cells.wfFrom_cons.mpr ⟨le_refl k', hw'.2⟩) hlt] at h1
          exact absurd h1 hw.2.2.1
        · exact heq
        · have h1 := hr k'
          rw [Cells.read_below (lo := k) (Cells.wfFrom_cons.mpr ⟨le_refl k, hw.2⟩) hgt,
            Cells.read_cons, if_pos rfl] at h1
          exact absurd h1.symm hw'.2.2.1
      subst hk
      have hc : c = c' := by have := hr k; simpa [Cells.read_cons] using this
      subst hc
      rw [ih hw.2.2.2 hw'.2.2.2 fun a => ?_]
      have := hr a
      rw [Cells.read_cons, Cells.read_cons] at this
      by_cases hak : a = k
      · subst hak
        rw [Cells.read_below hw.2.2.2 (by omega), Cells.read_below hw'.2.2.2 (by omega)]
      · rwa [if_neg hak, if_neg hak] at this

/-- The listed cells of a tabulated space, from address `lo` on. -/
theorem Cells.wfFrom_tabulate_range' (f : Nat → Byte) (lo n : Nat) (hsize : lo + n ≤ size) :
    Cells.wfFrom bg size lo
      ((List.range' lo n).filterMap fun a => if f a = bg a then none else some (a, f a)) = true := by
  induction n generalizing lo with
  | zero => rfl
  | succ n ih =>
    rw [List.range'_succ, List.filterMap_cons]
    by_cases h : f lo = bg lo
    · rw [if_pos h]
      exact Cells.wfFrom_mono (by omega) (ih (lo + 1) (by omega))
    · rw [if_neg h, Cells.wfFrom_cons]
      exact ⟨le_refl lo, by omega, h, ih (lo + 1) (by omega)⟩

/-- A tabulated space is canonical. -/
theorem Cells.tabulate_wf (f : Nat → Byte) : Cells.wfFrom bg size 0 (Cells.tabulate bg size f) = true := by
  rw [Cells.tabulate, List.range_eq_range']
  exact Cells.wfFrom_tabulate_range' f 0 size (by omega)

theorem Cells.read_tabulate_range' (f : Nat → Byte) (lo n a : Nat) :
    Cells.read bg ((List.range' lo n).filterMap fun a => if f a = bg a then none else some (a, f a)) a =
      if lo ≤ a ∧ a < lo + n then f a else bg a := by
  induction n generalizing lo with
  | zero => rw [if_neg (by omega)]; rfl
  | succ n ih =>
    rw [List.range'_succ, List.filterMap_cons]
    by_cases h : f lo = bg lo
    · rw [if_pos h]
      show Cells.read bg _ a = _
      rw [ih (lo + 1)]
      by_cases ha : a = lo
      · subst ha; rw [if_neg (by omega), if_pos (by omega), h]
      · congr 1; simp only [eq_iff_iff]; omega
    · rw [if_neg h]
      show Cells.read bg ((lo, f lo) :: _) a = _
      rw [Cells.read_cons, ih (lo + 1)]
      by_cases ha : a = lo
      · subst ha; rw [if_pos rfl, if_pos (by omega)]
      · rw [if_neg ha]; congr 1; simp only [eq_iff_iff]; omega

/-- What a tabulated space reads as. -/
theorem Cells.read_tabulate (f : Nat → Byte) (a : Nat) :
    Cells.read bg (Cells.tabulate bg size f) a = if a < size then f a else bg a := by
  rw [Cells.tabulate, List.range_eq_range', Cells.read_tabulate_range']
  congr 1; simp

end Cells

/-! ### The display plane -/

/-- A pixel on the plane has a cell of the live region (R76). -/
theorem Plane.index_lt {w : Width} {px py : Nat} (hx : px < w.cols) (hy : py < w.rows) :
    Plane.index w px py < w.liveCells := by
  unfold Plane.index Width.liveCells
  calc py * w.cols + px < py * w.cols + w.cols := by omega
    _ = (py + 1) * w.cols := by rw [Nat.succ_mul]
    _ ≤ w.rows * w.cols := Nat.mul_le_mul_right _ hy
    _ = w.cols * w.rows := Nat.mul_comm _ _

theorem Plane.index_mod {w : Width} {px py : Nat} (hx : px < w.cols) : Plane.index w px py % w.cols = px := by
  unfold Plane.index
  rw [Nat.add_comm, Nat.add_mul_mod_self_right, Nat.mod_eq_of_lt hx]

theorem Plane.index_div {w : Width} {px py : Nat} (hx : px < w.cols) : Plane.index w px py / w.cols = py := by
  unfold Plane.index
  rw [Nat.add_comm, Nat.add_mul_div_right _ _ (w.cols_pos), Nat.div_eq_of_lt hx, Nat.zero_add]

/-- Two pixels on the plane with one cell are one pixel (R30). -/
theorem Plane.index_inj {w : Width} {px py px' py' : Nat} (hx : px < w.cols) (hx' : px' < w.cols)
    (h : Plane.index w px py = Plane.index w px' py') : px = px' ∧ py = py' := by
  have hm := Plane.index_mod (py := py) hx
  have hd := Plane.index_div (py := py) hx
  rw [h, Plane.index_mod hx'] at hm
  rw [h, Plane.index_div hx'] at hd
  exact ⟨hm.symm, hd.symm⟩

/-- A cell of a plane, after one cell is set. -/
theorem Plane.get_set {w : Width} {p : Cells} (h : Plane.wf w p = true) (k : Nat) (b : Byte) (k' : Nat) :
    Plane.get (Plane.set p k b) k' = if k' = k then b else Plane.get p k' :=
  Cells.read_write h k b k'

/-- Setting a live cell keeps the canonical form. -/
theorem Plane.set_wf {w : Width} {p : Cells} (h : Plane.wf w p = true) {k : Nat} (hk : k < w.liveCells) (b : Byte) :
    Plane.wf w (Plane.set p k b) = true :=
  Cells.write_wfFrom h (Nat.zero_le k) hk

/-- A tabulated plane: its cells. -/
theorem Plane.get_tabulate {w : Width} (f : Nat → Nat → Byte) {px py : Nat} (hx : px < w.cols) (hy : py < w.rows) :
    Plane.get (Plane.tabulate w f) (Plane.index w px py) = f px py := by
  unfold Plane.get Plane.tabulate
  rw [Cells.read_tabulate, if_pos (Plane.index_lt hx hy), Plane.index_mod hx, Plane.index_div hx]

theorem Plane.tabulate_wf (w : Width) (f : Nat → Nat → Byte) : Plane.wf w (Plane.tabulate w f) = true :=
  Cells.tabulate_wf _

/-- A filled plane is the tabulated plane of one value. -/
theorem Plane.fill_eq_tabulate (w : Width) (b : Byte) : Plane.fill w b = Plane.tabulate w fun _ _ => b := by
  unfold Plane.fill Plane.tabulate Cells.tabulate planeGround
  by_cases h : b = 0
  · subst h; simp
  · simp only [if_neg h]
    rw [List.filterMap_eq_map']

theorem Plane.get_fill {w : Width} (b : Byte) {px py : Nat} (hx : px < w.cols) (hy : py < w.rows) :
    Plane.get (Plane.fill w b) (Plane.index w px py) = b := by
  rw [Plane.fill_eq_tabulate, Plane.get_tabulate _ hx hy]

theorem Plane.fill_wf (w : Width) (b : Byte) : Plane.wf w (Plane.fill w b) = true := by
  rw [Plane.fill_eq_tabulate]; exact Plane.tabulate_wf w _

/-! ### Main memory -/

theorem maskAddr_lt (a : Nat) : maskAddr a < 4096 := Nat.mod_lt a (by omega)

theorem maskAddr_of_lt {a : Nat} (h : a < 4096) : maskAddr a = a := Nat.mod_eq_of_lt h

/-- A read after a write (R62, R70). -/
theorem Memory.read_write {c : Config} {m : Cells} (h : Memory.wf c m = true) (a : Nat) (b : Byte) (a' : Nat) :
    Memory.read c (Memory.write c m a b) a' = if maskAddr a' = maskAddr a then b else Memory.read c m a' :=
  Cells.read_write h (maskAddr a) b (maskAddr a')

theorem Memory.write_wf {c : Config} {m : Cells} (h : Memory.wf c m = true) (a : Nat) (b : Byte) :
    Memory.wf c (Memory.write c m a b) = true :=
  Cells.write_wfFrom h (Nat.zero_le _) (maskAddr_lt a)

theorem Memory.store_wf {c : Config} {m : Cells} (h : Memory.wf c m = true) (a : Nat) (bs : List Byte) :
    Memory.wf c (Memory.store c m a bs) = true := by
  induction bs generalizing m a with
  | nil => exact h
  | cons b bs ih => exact ih (Memory.write_wf h a b) (a + 1)

/-- Outside the stored addresses memory reads as before (R62). -/
theorem Memory.read_store_other {c : Config} {m : Cells} (h : Memory.wf c m = true) (a : Nat) (bs : List Byte)
    {a' : Nat} (hout : ∀ k < bs.length, maskAddr a' ≠ maskAddr (a + k)) :
    Memory.read c (Memory.store c m a bs) a' = Memory.read c m a' := by
  induction bs generalizing m a with
  | nil => rfl
  | cons b bs ih =>
    show Memory.read c (Memory.store c (Memory.write c m a b) (a + 1) bs) a' = _
    rw [ih (Memory.write_wf h a b) (a + 1), Memory.read_write h, if_neg]
    · have := hout 0 (by simp); simpa using this
    · intro k hk
      have := hout (k + 1) (by simp; omega)
      rwa [Nat.add_assoc, Nat.add_comm 1 k]

/-- Each stored byte is read back, as long as the bytes do not meet themselves modulo 4096 (R62, R66). -/
theorem Memory.read_store {c : Config} {m : Cells} (h : Memory.wf c m = true) (a : Nat) (bs : List Byte)
    (hlen : bs.length ≤ 4096) {k : Nat} (hk : k < bs.length) :
    Memory.read c (Memory.store c m a bs) (a + k) = bs[k] := by
  induction bs generalizing m a k with
  | nil => simp at hk
  | cons b bs ih =>
    show Memory.read c (Memory.store c (Memory.write c m a b) (a + 1) bs) (a + k) = _
    have hwf := Memory.write_wf h a b
    cases k with
    | zero =>
      rw [Memory.read_store_other hwf, Nat.add_zero, Memory.read_write h, if_pos rfl]
      · rfl
      · intro j hj
        simp only [List.length_cons] at hlen
        unfold maskAddr
        omega
    | succ k =>
      have := ih hwf (a + 1) (by simp at hlen; omega) (k := k) (by simp at hk; omega)
      rw [show a + (k + 1) = a + 1 + k by omega, this]
      rfl

end Sys2Proof.Machine
end

