-- ==== Sys2Proof/Laws/Decode.lean ====
section
/-! SUPPORT. The formats and the fields: what each field of a format reads as, and what each format's fixed bits are. -/

namespace Sys2Proof

/-! ### The fields of a format are what it was made from (spec/30_encoding.md R81, R82) -/

theorem formatA_f (f : Nibble) (nnn : Imm12) : fieldF (formatA f nnn) = f := by
  apply BitVec.eq_of_getLsbD_eq
  intro i hi
  simp only [fieldF, formatA, BitVec.getLsbD_extractLsb', BitVec.getLsbD_append, hi, decide_true, Bool.true_and]
  rw [if_neg (by omega), show 12 + i - 12 = i by omega]

theorem formatA_nnn (f : Nibble) (nnn : Imm12) : fieldNNN (formatA f nnn) = nnn := by
  apply BitVec.eq_of_getLsbD_eq
  intro i hi
  simp only [fieldNNN, formatA, BitVec.getLsbD_extractLsb', BitVec.getLsbD_append, hi, decide_true, Bool.true_and,
    Nat.zero_add, if_true]

theorem formatXK_f (f : Nibble) (x : Reg) (kk : Byte) : fieldF (formatXK f x kk) = f := by
  apply BitVec.eq_of_getLsbD_eq
  intro i hi
  simp only [fieldF, formatXK, BitVec.getLsbD_extractLsb', BitVec.getLsbD_append, hi, decide_true, Bool.true_and]
  rw [if_neg (by omega), if_neg (by omega), show 12 + i - 8 - 4 = i by omega]

theorem formatXK_x (f : Nibble) (x : Reg) (kk : Byte) : fieldX (formatXK f x kk) = x := by
  have h : (formatXK f x kk).extractLsb' 8 4 = BitVec.ofFin (w := 4) x := by
    apply BitVec.eq_of_getLsbD_eq
    intro i hi
    simp only [formatXK, BitVec.getLsbD_extractLsb', BitVec.getLsbD_append, hi, decide_true, Bool.true_and]
    rw [if_neg (by omega), if_pos (by omega), show 8 + i - 8 = i by omega]
  rw [fieldX, h]

theorem formatXK_kk (f : Nibble) (x : Reg) (kk : Byte) : fieldKK (formatXK f x kk) = kk := by
  apply BitVec.eq_of_getLsbD_eq
  intro i hi
  simp only [fieldKK, formatXK, BitVec.getLsbD_extractLsb', BitVec.getLsbD_append, hi, decide_true, Bool.true_and,
    Nat.zero_add, if_true]

/-- Format `XY(N)` is format `XK` whose `kk` is `y` and `n`. -/
theorem formatXYN_eq (f : Nibble) (x y : Reg) (n : Nibble) :
    formatXYN f x y n = formatXK f x (BitVec.ofFin (w := 4) y ++ n) := by
  apply BitVec.eq_of_getLsbD_eq
  intro i hi
  simp only [formatXYN, formatXK, BitVec.getLsbD_append]
  by_cases h4 : i < 4
  · rw [if_pos h4, if_pos (by omega), if_pos h4]
  · rw [if_neg h4]
    by_cases h8 : i < 8
    · rw [if_pos (by omega), if_pos h8, if_neg h4]
    · rw [if_neg (by omega), if_neg h8]
      by_cases h12 : i < 12
      · rw [if_pos (by omega), if_pos (by omega), show i - 4 - 4 = i - 8 by omega]
      · rw [if_neg (by omega), if_neg (by omega), show i - 4 - 4 - 4 = i - 8 - 4 by omega]

theorem formatXYN_f (f : Nibble) (x y : Reg) (n : Nibble) : fieldF (formatXYN f x y n) = f := by
  rw [formatXYN_eq, formatXK_f]

theorem formatXYN_x (f : Nibble) (x y : Reg) (n : Nibble) : fieldX (formatXYN f x y n) = x := by
  rw [formatXYN_eq, formatXK_x]

theorem formatXYN_y (f : Nibble) (x y : Reg) (n : Nibble) : fieldY (formatXYN f x y n) = y := by
  have h : (formatXYN f x y n).extractLsb' 4 4 = BitVec.ofFin (w := 4) y := by
    apply BitVec.eq_of_getLsbD_eq
    intro i hi
    simp only [formatXYN, BitVec.getLsbD_extractLsb', BitVec.getLsbD_append, hi, decide_true, Bool.true_and]
    rw [if_neg (by omega), if_pos (by omega), show 4 + i - 4 = i by omega]
  rw [fieldY, h]

theorem formatXYN_n (f : Nibble) (x y : Reg) (n : Nibble) : fieldN (formatXYN f x y n) = n := by
  apply BitVec.eq_of_getLsbD_eq
  intro i hi
  simp only [fieldN, formatXYN, BitVec.getLsbD_extractLsb', BitVec.getLsbD_append, hi, decide_true, Bool.true_and,
    Nat.zero_add, if_true]

/-! ### The fixed bits of a format (R91) -/

theorem formatA_mask (f : Nibble) (nnn : Imm12) : formatA f nnn &&& 0xf000#16 = f ++ 0#12 := by
  apply BitVec.eq_of_getLsbD_eq
  intro i hi
  have hm : (0xf000#16).getLsbD i = decide (12 ≤ i) := by revert i; decide
  rw [BitVec.getLsbD_and, hm, formatA, BitVec.getLsbD_append, BitVec.getLsbD_append]
  by_cases h : i < 12
  · simp [h]
  · simp [h]; omega

theorem formatXK_mask (f : Nibble) (x : Reg) (kk : Byte) : formatXK f x kk &&& 0xf000#16 = f ++ 0#12 := by
  apply BitVec.eq_of_getLsbD_eq
  intro i hi
  have hm : (0xf000#16).getLsbD i = decide (12 ≤ i) := by revert i; decide
  rw [BitVec.getLsbD_and, hm, formatXK]
  simp only [BitVec.getLsbD_append]
  by_cases h : i < 12
  · simp [h]
  · rw [if_neg (by omega), if_neg (by omega), if_neg h, show i - 8 - 4 = i - 12 by omega]; simp; omega

theorem formatXK_mask_X (f : Nibble) (x : Reg) (kk : Byte) :
    formatXK f x kk &&& 0xf0ff#16 = (f ++ 0#4) ++ kk := by
  apply BitVec.eq_of_getLsbD_eq
  intro i hi
  have hm : (0xf0ff#16).getLsbD i = decide (12 ≤ i ∨ i < 8) := by revert i; decide
  rw [BitVec.getLsbD_and, hm, formatXK]
  simp only [BitVec.getLsbD_append]
  by_cases h8 : i < 8
  · simp [h8]
  · rw [if_neg h8, if_neg h8]
    by_cases h12 : i < 12
    · rw [if_pos (by omega), if_pos (by omega)]; simp; omega
    · rw [if_neg (by omega), if_neg (by omega)]; simp; omega

theorem formatXYN_mask (f : Nibble) (x y : Reg) (n : Nibble) :
    formatXYN f x y n &&& 0xf000#16 = f ++ 0#12 := by
  rw [formatXYN_eq, formatXK_mask]

theorem formatXYN_mask_XY (f : Nibble) (x y : Reg) (n : Nibble) :
    formatXYN f x y n &&& 0xf00f#16 = (f ++ 0#8) ++ n := by
  apply BitVec.eq_of_getLsbD_eq
  intro i hi
  have hm : (0xf00f#16).getLsbD i = decide (12 ≤ i ∨ i < 4) := by revert i; decide
  rw [BitVec.getLsbD_and, hm, formatXYN]
  simp only [BitVec.getLsbD_append]
  by_cases h4 : i < 4
  · simp [h4]
  · rw [if_neg h4, if_neg h4]
    by_cases h12 : i < 12
    · rw [if_pos (show i - 4 < 8 by omega)]; simp; omega
    · rw [if_neg (by omega), if_neg (by omega), if_neg (by omega), show i - 4 - 4 - 4 = i - 4 - 8 by omega]; simp; omega

theorem formatZN_mask (fixed : Imm12) (n : Nibble) : formatZN fixed n &&& 0xfff0#16 = fixed ++ 0#4 := by
  apply BitVec.eq_of_getLsbD_eq
  intro i hi
  have hm : (0xfff0#16).getLsbD i = decide (4 ≤ i) := by revert i; decide
  rw [BitVec.getLsbD_and, hm, formatZN, BitVec.getLsbD_append, BitVec.getLsbD_append]
  by_cases h : i < 4
  · simp [h]
  · simp [h]; omega

/-! ### Bytes and opcodes (R63, R64) -/

/-- The two bytes of an opcode make the opcode again. -/
theorem bytesToOpcode_high_low (op : Word) : bytesToOpcode (opcodeHigh op) (opcodeLow op) = op := by
  unfold bytesToOpcode opcodeHigh opcodeLow
  apply BitVec.eq_of_getLsbD_eq
  intro i hi
  simp only [BitVec.getLsbD_append, BitVec.getLsbD_extractLsb']
  by_cases h8 : i < 8
  · simp [h8]
  · simp [h8, show i - 8 < 8 by omega, show 8 + (i - 8) = i by omega]

/-- An instruction's bytes decode as its opcode does. -/
theorem decode_encode_eq (i : Instr) (rest : List Byte) :
    decode (encode i ++ rest) =
      match decodeWord (encodeWord i) with
      | .ok j => .ok (j, rest)
      | .error e => .error e := by
  show (match decodeWord (bytesToOpcode (opcodeHigh (encodeWord i)) (opcodeLow (encodeWord i))) with
    | .ok j => _
    | .error e => _) = _
  rw [bytesToOpcode_high_low]
  rfl

end Sys2Proof
end

