-- ==== Sys2Proof/Laws/State.lean ====
section
/-! SUPPORT. For each named operation over the state, what each field of the state, and each reading of it, is
afterwards: one lemma a field. Together with them no proof needs to unfold a record update. -/

namespace Sys2Proof.Machine

variable (s : State)

/-! ### `setReg` -/

@[simp] theorem State.setReg_v (r : Reg) (b : Byte) : (s.setReg r b).v = (s.v.set r b) := rfl
@[simp] theorem State.setReg_i (r : Reg) (b : Byte) : (s.setReg r b).i = s.i := rfl
@[simp] theorem State.setReg_pc (r : Reg) (b : Byte) : (s.setReg r b).pc = s.pc := rfl
@[simp] theorem State.setReg_sp (r : Reg) (b : Byte) : (s.setReg r b).sp = s.sp := rfl
@[simp] theorem State.setReg_stack (r : Reg) (b : Byte) : (s.setReg r b).stack = s.stack := rfl
@[simp] theorem State.setReg_dt (r : Reg) (b : Byte) : (s.setReg r b).dt = s.dt := rfl
@[simp] theorem State.setReg_st (r : Reg) (b : Byte) : (s.setReg r b).st = s.st := rfl
@[simp] theorem State.setReg_tone (r : Reg) (b : Byte) : (s.setReg r b).tone = s.tone := rfl
@[simp] theorem State.setReg_memory (r : Reg) (b : Byte) : (s.setReg r b).memory = s.memory := rfl
@[simp] theorem State.setReg_plane (r : Reg) (b : Byte) : (s.setReg r b).plane = s.plane := rfl
@[simp] theorem State.setReg_width (r : Reg) (b : Byte) : (s.setReg r b).width = s.width := rfl
@[simp] theorem State.setReg_fg (r : Reg) (b : Byte) : (s.setReg r b).fg = s.fg := rfl
@[simp] theorem State.setReg_bg (r : Reg) (b : Byte) : (s.setReg r b).bg = s.bg := rfl
@[simp] theorem State.setReg_dirty (r : Reg) (b : Byte) : (s.setReg r b).dirty = s.dirty := rfl
@[simp] theorem State.setReg_status (r : Reg) (b : Byte) : (s.setReg r b).status = s.status := rfl
@[simp] theorem State.setReg_events (r : Reg) (b : Byte) : (s.setReg r b).events = s.events := rfl
@[simp] theorem State.setReg_config (r : Reg) (b : Byte) : (s.setReg r b).config = s.config := rfl
@[simp] theorem State.setReg_inputs (r : Reg) (b : Byte) : (s.setReg r b).inputs = s.inputs := rfl
@[simp] theorem State.setReg_stepCount (r : Reg) (b : Byte) : (s.setReg r b).stepCount = s.stepCount := rfl
@[simp] theorem State.setReg_memRead (r : Reg) (b : Byte) (a' : Nat) : (s.setReg r b).memRead a' = s.memRead a' := rfl
@[simp] theorem State.setReg_cell (r : Reg) (b : Byte) (px py : Nat) : (s.setReg r b).cell px py = s.cell px py := rfl
@[simp] theorem State.setReg_input (r : Reg) (b : Byte) : (s.setReg r b).input = s.input := rfl
@[simp] theorem State.setReg_pen (r : Reg) (b : Byte) : (s.setReg r b).pen = s.pen := rfl
@[simp] theorem State.setReg_ea (r : Reg) (b : Byte) (k : Nat) : (s.setReg r b).ea k = s.ea k := rfl

/-! ### `emit` -/

@[simp] theorem State.emit_v (es : List Event) : (s.emit es).v = s.v := rfl
@[simp] theorem State.emit_i (es : List Event) : (s.emit es).i = s.i := rfl
@[simp] theorem State.emit_pc (es : List Event) : (s.emit es).pc = s.pc := rfl
@[simp] theorem State.emit_sp (es : List Event) : (s.emit es).sp = s.sp := rfl
@[simp] theorem State.emit_stack (es : List Event) : (s.emit es).stack = s.stack := rfl
@[simp] theorem State.emit_dt (es : List Event) : (s.emit es).dt = s.dt := rfl
@[simp] theorem State.emit_st (es : List Event) : (s.emit es).st = s.st := rfl
@[simp] theorem State.emit_tone (es : List Event) : (s.emit es).tone = s.tone := rfl
@[simp] theorem State.emit_memory (es : List Event) : (s.emit es).memory = s.memory := rfl
@[simp] theorem State.emit_plane (es : List Event) : (s.emit es).plane = s.plane := rfl
@[simp] theorem State.emit_width (es : List Event) : (s.emit es).width = s.width := rfl
@[simp] theorem State.emit_fg (es : List Event) : (s.emit es).fg = s.fg := rfl
@[simp] theorem State.emit_bg (es : List Event) : (s.emit es).bg = s.bg := rfl
@[simp] theorem State.emit_dirty (es : List Event) : (s.emit es).dirty = s.dirty := rfl
@[simp] theorem State.emit_status (es : List Event) : (s.emit es).status = s.status := rfl
@[simp] theorem State.emit_events (es : List Event) : (s.emit es).events = (s.events ++ es) := rfl
@[simp] theorem State.emit_config (es : List Event) : (s.emit es).config = s.config := rfl
@[simp] theorem State.emit_inputs (es : List Event) : (s.emit es).inputs = s.inputs := rfl
@[simp] theorem State.emit_stepCount (es : List Event) : (s.emit es).stepCount = s.stepCount := rfl
@[simp] theorem State.emit_reg (es : List Event) (r' : Reg) : (s.emit es).reg r' = s.reg r' := rfl
@[simp] theorem State.emit_memRead (es : List Event) (a' : Nat) : (s.emit es).memRead a' = s.memRead a' := rfl
@[simp] theorem State.emit_cell (es : List Event) (px py : Nat) : (s.emit es).cell px py = s.cell px py := rfl
@[simp] theorem State.emit_input (es : List Event) : (s.emit es).input = s.input := rfl
@[simp] theorem State.emit_pen (es : List Event) : (s.emit es).pen = s.pen := rfl
@[simp] theorem State.emit_ea (es : List Event) (k : Nat) : (s.emit es).ea k = s.ea k := rfl

/-! ### `advance` -/

@[simp] theorem State.advance_v : (s.advance).v = s.v := rfl
@[simp] theorem State.advance_i : (s.advance).i = s.i := rfl
@[simp] theorem State.advance_pc : (s.advance).pc = (s.pc + 2) := rfl
@[simp] theorem State.advance_sp : (s.advance).sp = s.sp := rfl
@[simp] theorem State.advance_stack : (s.advance).stack = s.stack := rfl
@[simp] theorem State.advance_dt : (s.advance).dt = s.dt := rfl
@[simp] theorem State.advance_st : (s.advance).st = s.st := rfl
@[simp] theorem State.advance_tone : (s.advance).tone = s.tone := rfl
@[simp] theorem State.advance_memory : (s.advance).memory = s.memory := rfl
@[simp] theorem State.advance_plane : (s.advance).plane = s.plane := rfl
@[simp] theorem State.advance_width : (s.advance).width = s.width := rfl
@[simp] theorem State.advance_fg : (s.advance).fg = s.fg := rfl
@[simp] theorem State.advance_bg : (s.advance).bg = s.bg := rfl
@[simp] theorem State.advance_dirty : (s.advance).dirty = s.dirty := rfl
@[simp] theorem State.advance_status : (s.advance).status = s.status := rfl
@[simp] theorem State.advance_events : (s.advance).events = s.events := rfl
@[simp] theorem State.advance_config : (s.advance).config = s.config := rfl
@[simp] theorem State.advance_inputs : (s.advance).inputs = s.inputs := rfl
@[simp] theorem State.advance_stepCount : (s.advance).stepCount = s.stepCount := rfl
@[simp] theorem State.advance_reg (r' : Reg) : (s.advance).reg r' = s.reg r' := rfl
@[simp] theorem State.advance_memRead (a' : Nat) : (s.advance).memRead a' = s.memRead a' := rfl
@[simp] theorem State.advance_cell (px py : Nat) : (s.advance).cell px py = s.cell px py := rfl
@[simp] theorem State.advance_input : (s.advance).input = s.input := rfl
@[simp] theorem State.advance_pen : (s.advance).pen = s.pen := rfl
@[simp] theorem State.advance_ea (k : Nat) : (s.advance).ea k = s.ea k := rfl

/-! ### `jump` -/

@[simp] theorem State.jump_v (a : Word) : (s.jump a).v = s.v := rfl
@[simp] theorem State.jump_i (a : Word) : (s.jump a).i = s.i := rfl
@[simp] theorem State.jump_pc (a : Word) : (s.jump a).pc = a := rfl
@[simp] theorem State.jump_sp (a : Word) : (s.jump a).sp = s.sp := rfl
@[simp] theorem State.jump_stack (a : Word) : (s.jump a).stack = s.stack := rfl
@[simp] theorem State.jump_dt (a : Word) : (s.jump a).dt = s.dt := rfl
@[simp] theorem State.jump_st (a : Word) : (s.jump a).st = s.st := rfl
@[simp] theorem State.jump_tone (a : Word) : (s.jump a).tone = s.tone := rfl
@[simp] theorem State.jump_memory (a : Word) : (s.jump a).memory = s.memory := rfl
@[simp] theorem State.jump_plane (a : Word) : (s.jump a).plane = s.plane := rfl
@[simp] theorem State.jump_width (a : Word) : (s.jump a).width = s.width := rfl
@[simp] theorem State.jump_fg (a : Word) : (s.jump a).fg = s.fg := rfl
@[simp] theorem State.jump_bg (a : Word) : (s.jump a).bg = s.bg := rfl
@[simp] theorem State.jump_dirty (a : Word) : (s.jump a).dirty = s.dirty := rfl
@[simp] theorem State.jump_status (a : Word) : (s.jump a).status = s.status := rfl
@[simp] theorem State.jump_events (a : Word) : (s.jump a).events = s.events := rfl
@[simp] theorem State.jump_config (a : Word) : (s.jump a).config = s.config := rfl
@[simp] theorem State.jump_inputs (a : Word) : (s.jump a).inputs = s.inputs := rfl
@[simp] theorem State.jump_stepCount (a : Word) : (s.jump a).stepCount = s.stepCount := rfl
@[simp] theorem State.jump_reg (a : Word) (r' : Reg) : (s.jump a).reg r' = s.reg r' := rfl
@[simp] theorem State.jump_memRead (a : Word) (a' : Nat) : (s.jump a).memRead a' = s.memRead a' := rfl
@[simp] theorem State.jump_cell (a : Word) (px py : Nat) : (s.jump a).cell px py = s.cell px py := rfl
@[simp] theorem State.jump_input (a : Word) : (s.jump a).input = s.input := rfl
@[simp] theorem State.jump_pen (a : Word) : (s.jump a).pen = s.pen := rfl
@[simp] theorem State.jump_ea (a : Word) (k : Nat) : (s.jump a).ea k = s.ea k := rfl

/-! ### `skipIf` -/

@[simp] theorem State.skipIf_v (c : Bool) : (s.skipIf c).v = s.v := rfl
@[simp] theorem State.skipIf_i (c : Bool) : (s.skipIf c).i = s.i := rfl
@[simp] theorem State.skipIf_pc (c : Bool) : (s.skipIf c).pc = (if c then s.pc + 4 else s.pc + 2) := rfl
@[simp] theorem State.skipIf_sp (c : Bool) : (s.skipIf c).sp = s.sp := rfl
@[simp] theorem State.skipIf_stack (c : Bool) : (s.skipIf c).stack = s.stack := rfl
@[simp] theorem State.skipIf_dt (c : Bool) : (s.skipIf c).dt = s.dt := rfl
@[simp] theorem State.skipIf_st (c : Bool) : (s.skipIf c).st = s.st := rfl
@[simp] theorem State.skipIf_tone (c : Bool) : (s.skipIf c).tone = s.tone := rfl
@[simp] theorem State.skipIf_memory (c : Bool) : (s.skipIf c).memory = s.memory := rfl
@[simp] theorem State.skipIf_plane (c : Bool) : (s.skipIf c).plane = s.plane := rfl
@[simp] theorem State.skipIf_width (c : Bool) : (s.skipIf c).width = s.width := rfl
@[simp] theorem State.skipIf_fg (c : Bool) : (s.skipIf c).fg = s.fg := rfl
@[simp] theorem State.skipIf_bg (c : Bool) : (s.skipIf c).bg = s.bg := rfl
@[simp] theorem State.skipIf_dirty (c : Bool) : (s.skipIf c).dirty = s.dirty := rfl
@[simp] theorem State.skipIf_status (c : Bool) : (s.skipIf c).status = s.status := rfl
@[simp] theorem State.skipIf_events (c : Bool) : (s.skipIf c).events = s.events := rfl
@[simp] theorem State.skipIf_config (c : Bool) : (s.skipIf c).config = s.config := rfl
@[simp] theorem State.skipIf_inputs (c : Bool) : (s.skipIf c).inputs = s.inputs := rfl
@[simp] theorem State.skipIf_stepCount (c : Bool) : (s.skipIf c).stepCount = s.stepCount := rfl
@[simp] theorem State.skipIf_reg (c : Bool) (r' : Reg) : (s.skipIf c).reg r' = s.reg r' := rfl
@[simp] theorem State.skipIf_memRead (c : Bool) (a' : Nat) : (s.skipIf c).memRead a' = s.memRead a' := rfl
@[simp] theorem State.skipIf_cell (c : Bool) (px py : Nat) : (s.skipIf c).cell px py = s.cell px py := rfl
@[simp] theorem State.skipIf_input (c : Bool) : (s.skipIf c).input = s.input := rfl
@[simp] theorem State.skipIf_pen (c : Bool) : (s.skipIf c).pen = s.pen := rfl
@[simp] theorem State.skipIf_ea (c : Bool) (k : Nat) : (s.skipIf c).ea k = s.ea k := rfl

/-! ### `setIndex` -/

@[simp] theorem State.setIndex_v (a : Word) : (s.setIndex a).v = s.v := rfl
@[simp] theorem State.setIndex_i (a : Word) : (s.setIndex a).i = a := rfl
@[simp] theorem State.setIndex_pc (a : Word) : (s.setIndex a).pc = s.pc := rfl
@[simp] theorem State.setIndex_sp (a : Word) : (s.setIndex a).sp = s.sp := rfl
@[simp] theorem State.setIndex_stack (a : Word) : (s.setIndex a).stack = s.stack := rfl
@[simp] theorem State.setIndex_dt (a : Word) : (s.setIndex a).dt = s.dt := rfl
@[simp] theorem State.setIndex_st (a : Word) : (s.setIndex a).st = s.st := rfl
@[simp] theorem State.setIndex_tone (a : Word) : (s.setIndex a).tone = s.tone := rfl
@[simp] theorem State.setIndex_memory (a : Word) : (s.setIndex a).memory = s.memory := rfl
@[simp] theorem State.setIndex_plane (a : Word) : (s.setIndex a).plane = s.plane := rfl
@[simp] theorem State.setIndex_width (a : Word) : (s.setIndex a).width = s.width := rfl
@[simp] theorem State.setIndex_fg (a : Word) : (s.setIndex a).fg = s.fg := rfl
@[simp] theorem State.setIndex_bg (a : Word) : (s.setIndex a).bg = s.bg := rfl
@[simp] theorem State.setIndex_dirty (a : Word) : (s.setIndex a).dirty = s.dirty := rfl
@[simp] theorem State.setIndex_status (a : Word) : (s.setIndex a).status = s.status := rfl
@[simp] theorem State.setIndex_events (a : Word) : (s.setIndex a).events = s.events := rfl
@[simp] theorem State.setIndex_config (a : Word) : (s.setIndex a).config = s.config := rfl
@[simp] theorem State.setIndex_inputs (a : Word) : (s.setIndex a).inputs = s.inputs := rfl
@[simp] theorem State.setIndex_stepCount (a : Word) : (s.setIndex a).stepCount = s.stepCount := rfl
@[simp] theorem State.setIndex_reg (a : Word) (r' : Reg) : (s.setIndex a).reg r' = s.reg r' := rfl
@[simp] theorem State.setIndex_memRead (a : Word) (a' : Nat) : (s.setIndex a).memRead a' = s.memRead a' := rfl
@[simp] theorem State.setIndex_cell (a : Word) (px py : Nat) : (s.setIndex a).cell px py = s.cell px py := rfl
@[simp] theorem State.setIndex_input (a : Word) : (s.setIndex a).input = s.input := rfl
@[simp] theorem State.setIndex_pen (a : Word) : (s.setIndex a).pen = s.pen := rfl

/-! ### `push` -/

@[simp] theorem State.push_v (a : Word) : (s.push a).v = s.v := rfl
@[simp] theorem State.push_i (a : Word) : (s.push a).i = s.i := rfl
@[simp] theorem State.push_pc (a : Word) : (s.push a).pc = s.pc := rfl
@[simp] theorem State.push_sp (a : Word) : (s.push a).sp = (s.sp + 1) := rfl
@[simp] theorem State.push_stack (a : Word) : (s.push a).stack = (s.stack.set s.sp.toNat a) := rfl
@[simp] theorem State.push_dt (a : Word) : (s.push a).dt = s.dt := rfl
@[simp] theorem State.push_st (a : Word) : (s.push a).st = s.st := rfl
@[simp] theorem State.push_tone (a : Word) : (s.push a).tone = s.tone := rfl
@[simp] theorem State.push_memory (a : Word) : (s.push a).memory = s.memory := rfl
@[simp] theorem State.push_plane (a : Word) : (s.push a).plane = s.plane := rfl
@[simp] theorem State.push_width (a : Word) : (s.push a).width = s.width := rfl
@[simp] theorem State.push_fg (a : Word) : (s.push a).fg = s.fg := rfl
@[simp] theorem State.push_bg (a : Word) : (s.push a).bg = s.bg := rfl
@[simp] theorem State.push_dirty (a : Word) : (s.push a).dirty = s.dirty := rfl
@[simp] theorem State.push_status (a : Word) : (s.push a).status = s.status := rfl
@[simp] theorem State.push_events (a : Word) : (s.push a).events = s.events := rfl
@[simp] theorem State.push_config (a : Word) : (s.push a).config = s.config := rfl
@[simp] theorem State.push_inputs (a : Word) : (s.push a).inputs = s.inputs := rfl
@[simp] theorem State.push_stepCount (a : Word) : (s.push a).stepCount = s.stepCount := rfl
@[simp] theorem State.push_reg (a : Word) (r' : Reg) : (s.push a).reg r' = s.reg r' := rfl
@[simp] theorem State.push_memRead (a : Word) (a' : Nat) : (s.push a).memRead a' = s.memRead a' := rfl
@[simp] theorem State.push_cell (a : Word) (px py : Nat) : (s.push a).cell px py = s.cell px py := rfl
@[simp] theorem State.push_input (a : Word) : (s.push a).input = s.input := rfl
@[simp] theorem State.push_pen (a : Word) : (s.push a).pen = s.pen := rfl
@[simp] theorem State.push_ea (a : Word) (k : Nat) : (s.push a).ea k = s.ea k := rfl

/-! ### `pop` -/

@[simp] theorem State.pop_v : (s.pop).v = s.v := rfl
@[simp] theorem State.pop_i : (s.pop).i = s.i := rfl
@[simp] theorem State.pop_pc : (s.pop).pc = s.pc := rfl
@[simp] theorem State.pop_sp : (s.pop).sp = (s.sp - 1) := rfl
@[simp] theorem State.pop_stack : (s.pop).stack = s.stack := rfl
@[simp] theorem State.pop_dt : (s.pop).dt = s.dt := rfl
@[simp] theorem State.pop_st : (s.pop).st = s.st := rfl
@[simp] theorem State.pop_tone : (s.pop).tone = s.tone := rfl
@[simp] theorem State.pop_memory : (s.pop).memory = s.memory := rfl
@[simp] theorem State.pop_plane : (s.pop).plane = s.plane := rfl
@[simp] theorem State.pop_width : (s.pop).width = s.width := rfl
@[simp] theorem State.pop_fg : (s.pop).fg = s.fg := rfl
@[simp] theorem State.pop_bg : (s.pop).bg = s.bg := rfl
@[simp] theorem State.pop_dirty : (s.pop).dirty = s.dirty := rfl
@[simp] theorem State.pop_status : (s.pop).status = s.status := rfl
@[simp] theorem State.pop_events : (s.pop).events = s.events := rfl
@[simp] theorem State.pop_config : (s.pop).config = s.config := rfl
@[simp] theorem State.pop_inputs : (s.pop).inputs = s.inputs := rfl
@[simp] theorem State.pop_stepCount : (s.pop).stepCount = s.stepCount := rfl
@[simp] theorem State.pop_reg (r' : Reg) : (s.pop).reg r' = s.reg r' := rfl
@[simp] theorem State.pop_memRead (a' : Nat) : (s.pop).memRead a' = s.memRead a' := rfl
@[simp] theorem State.pop_cell (px py : Nat) : (s.pop).cell px py = s.cell px py := rfl
@[simp] theorem State.pop_input : (s.pop).input = s.input := rfl
@[simp] theorem State.pop_pen : (s.pop).pen = s.pen := rfl
@[simp] theorem State.pop_ea (k : Nat) : (s.pop).ea k = s.ea k := rfl

/-! ### `memStore` -/

@[simp] theorem State.memStore_v (a : Nat) (bs : List Byte) : (s.memStore a bs).v = s.v := rfl
@[simp] theorem State.memStore_i (a : Nat) (bs : List Byte) : (s.memStore a bs).i = s.i := rfl
@[simp] theorem State.memStore_pc (a : Nat) (bs : List Byte) : (s.memStore a bs).pc = s.pc := rfl
@[simp] theorem State.memStore_sp (a : Nat) (bs : List Byte) : (s.memStore a bs).sp = s.sp := rfl
@[simp] theorem State.memStore_stack (a : Nat) (bs : List Byte) : (s.memStore a bs).stack = s.stack := rfl
@[simp] theorem State.memStore_dt (a : Nat) (bs : List Byte) : (s.memStore a bs).dt = s.dt := rfl
@[simp] theorem State.memStore_st (a : Nat) (bs : List Byte) : (s.memStore a bs).st = s.st := rfl
@[simp] theorem State.memStore_tone (a : Nat) (bs : List Byte) : (s.memStore a bs).tone = s.tone := rfl
@[simp] theorem State.memStore_memory (a : Nat) (bs : List Byte) : (s.memStore a bs).memory = (Memory.store s.config s.memory a bs) := rfl
@[simp] theorem State.memStore_plane (a : Nat) (bs : List Byte) : (s.memStore a bs).plane = s.plane := rfl
@[simp] theorem State.memStore_width (a : Nat) (bs : List Byte) : (s.memStore a bs).width = s.width := rfl
@[simp] theorem State.memStore_fg (a : Nat) (bs : List Byte) : (s.memStore a bs).fg = s.fg := rfl
@[simp] theorem State.memStore_bg (a : Nat) (bs : List Byte) : (s.memStore a bs).bg = s.bg := rfl
@[simp] theorem State.memStore_dirty (a : Nat) (bs : List Byte) : (s.memStore a bs).dirty = s.dirty := rfl
@[simp] theorem State.memStore_status (a : Nat) (bs : List Byte) : (s.memStore a bs).status = s.status := rfl
@[simp] theorem State.memStore_events (a : Nat) (bs : List Byte) : (s.memStore a bs).events = s.events := rfl
@[simp] theorem State.memStore_config (a : Nat) (bs : List Byte) : (s.memStore a bs).config = s.config := rfl
@[simp] theorem State.memStore_inputs (a : Nat) (bs : List Byte) : (s.memStore a bs).inputs = s.inputs := rfl
@[simp] theorem State.memStore_stepCount (a : Nat) (bs : List Byte) : (s.memStore a bs).stepCount = s.stepCount := rfl
@[simp] theorem State.memStore_reg (a : Nat) (bs : List Byte) (r' : Reg) : (s.memStore a bs).reg r' = s.reg r' := rfl
@[simp] theorem State.memStore_cell (a : Nat) (bs : List Byte) (px py : Nat) : (s.memStore a bs).cell px py = s.cell px py := rfl
@[simp] theorem State.memStore_input (a : Nat) (bs : List Byte) : (s.memStore a bs).input = s.input := rfl
@[simp] theorem State.memStore_pen (a : Nat) (bs : List Byte) : (s.memStore a bs).pen = s.pen := rfl
@[simp] theorem State.memStore_ea (a : Nat) (bs : List Byte) (k : Nat) : (s.memStore a bs).ea k = s.ea k := rfl

/-! ### `loadRegsTo` -/

@[simp] theorem State.loadRegsTo_v (x : Reg) (f : Nat → Byte) : (s.loadRegsTo x f).v = (loadUpTo f (x.val + 1) s.v) := rfl
@[simp] theorem State.loadRegsTo_i (x : Reg) (f : Nat → Byte) : (s.loadRegsTo x f).i = s.i := rfl
@[simp] theorem State.loadRegsTo_pc (x : Reg) (f : Nat → Byte) : (s.loadRegsTo x f).pc = s.pc := rfl
@[simp] theorem State.loadRegsTo_sp (x : Reg) (f : Nat → Byte) : (s.loadRegsTo x f).sp = s.sp := rfl
@[simp] theorem State.loadRegsTo_stack (x : Reg) (f : Nat → Byte) : (s.loadRegsTo x f).stack = s.stack := rfl
@[simp] theorem State.loadRegsTo_dt (x : Reg) (f : Nat → Byte) : (s.loadRegsTo x f).dt = s.dt := rfl
@[simp] theorem State.loadRegsTo_st (x : Reg) (f : Nat → Byte) : (s.loadRegsTo x f).st = s.st := rfl
@[simp] theorem State.loadRegsTo_tone (x : Reg) (f : Nat → Byte) : (s.loadRegsTo x f).tone = s.tone := rfl
@[simp] theorem State.loadRegsTo_memory (x : Reg) (f : Nat → Byte) : (s.loadRegsTo x f).memory = s.memory := rfl
@[simp] theorem State.loadRegsTo_plane (x : Reg) (f : Nat → Byte) : (s.loadRegsTo x f).plane = s.plane := rfl
@[simp] theorem State.loadRegsTo_width (x : Reg) (f : Nat → Byte) : (s.loadRegsTo x f).width = s.width := rfl
@[simp] theorem State.loadRegsTo_fg (x : Reg) (f : Nat → Byte) : (s.loadRegsTo x f).fg = s.fg := rfl
@[simp] theorem State.loadRegsTo_bg (x : Reg) (f : Nat → Byte) : (s.loadRegsTo x f).bg = s.bg := rfl
@[simp] theorem State.loadRegsTo_dirty (x : Reg) (f : Nat → Byte) : (s.loadRegsTo x f).dirty = s.dirty := rfl
@[simp] theorem State.loadRegsTo_status (x : Reg) (f : Nat → Byte) : (s.loadRegsTo x f).status = s.status := rfl
@[simp] theorem State.loadRegsTo_events (x : Reg) (f : Nat → Byte) : (s.loadRegsTo x f).events = s.events := rfl
@[simp] theorem State.loadRegsTo_config (x : Reg) (f : Nat → Byte) : (s.loadRegsTo x f).config = s.config := rfl
@[simp] theorem State.loadRegsTo_inputs (x : Reg) (f : Nat → Byte) : (s.loadRegsTo x f).inputs = s.inputs := rfl
@[simp] theorem State.loadRegsTo_stepCount (x : Reg) (f : Nat → Byte) : (s.loadRegsTo x f).stepCount = s.stepCount := rfl
@[simp] theorem State.loadRegsTo_memRead (x : Reg) (f : Nat → Byte) (a' : Nat) : (s.loadRegsTo x f).memRead a' = s.memRead a' := rfl
@[simp] theorem State.loadRegsTo_cell (x : Reg) (f : Nat → Byte) (px py : Nat) : (s.loadRegsTo x f).cell px py = s.cell px py := rfl
@[simp] theorem State.loadRegsTo_input (x : Reg) (f : Nat → Byte) : (s.loadRegsTo x f).input = s.input := rfl
@[simp] theorem State.loadRegsTo_pen (x : Reg) (f : Nat → Byte) : (s.loadRegsTo x f).pen = s.pen := rfl
@[simp] theorem State.loadRegsTo_ea (x : Reg) (f : Nat → Byte) (k : Nat) : (s.loadRegsTo x f).ea k = s.ea k := rfl

/-! ### `setDelay` -/

@[simp] theorem State.setDelay_v (b : Byte) : (s.setDelay b).v = s.v := rfl
@[simp] theorem State.setDelay_i (b : Byte) : (s.setDelay b).i = s.i := rfl
@[simp] theorem State.setDelay_pc (b : Byte) : (s.setDelay b).pc = s.pc := rfl
@[simp] theorem State.setDelay_sp (b : Byte) : (s.setDelay b).sp = s.sp := rfl
@[simp] theorem State.setDelay_stack (b : Byte) : (s.setDelay b).stack = s.stack := rfl
@[simp] theorem State.setDelay_dt (b : Byte) : (s.setDelay b).dt = b := rfl
@[simp] theorem State.setDelay_st (b : Byte) : (s.setDelay b).st = s.st := rfl
@[simp] theorem State.setDelay_tone (b : Byte) : (s.setDelay b).tone = s.tone := rfl
@[simp] theorem State.setDelay_memory (b : Byte) : (s.setDelay b).memory = s.memory := rfl
@[simp] theorem State.setDelay_plane (b : Byte) : (s.setDelay b).plane = s.plane := rfl
@[simp] theorem State.setDelay_width (b : Byte) : (s.setDelay b).width = s.width := rfl
@[simp] theorem State.setDelay_fg (b : Byte) : (s.setDelay b).fg = s.fg := rfl
@[simp] theorem State.setDelay_bg (b : Byte) : (s.setDelay b).bg = s.bg := rfl
@[simp] theorem State.setDelay_dirty (b : Byte) : (s.setDelay b).dirty = s.dirty := rfl
@[simp] theorem State.setDelay_status (b : Byte) : (s.setDelay b).status = s.status := rfl
@[simp] theorem State.setDelay_events (b : Byte) : (s.setDelay b).events = s.events := rfl
@[simp] theorem State.setDelay_config (b : Byte) : (s.setDelay b).config = s.config := rfl
@[simp] theorem State.setDelay_inputs (b : Byte) : (s.setDelay b).inputs = s.inputs := rfl
@[simp] theorem State.setDelay_stepCount (b : Byte) : (s.setDelay b).stepCount = s.stepCount := rfl
@[simp] theorem State.setDelay_reg (b : Byte) (r' : Reg) : (s.setDelay b).reg r' = s.reg r' := rfl
@[simp] theorem State.setDelay_memRead (b : Byte) (a' : Nat) : (s.setDelay b).memRead a' = s.memRead a' := rfl
@[simp] theorem State.setDelay_cell (b : Byte) (px py : Nat) : (s.setDelay b).cell px py = s.cell px py := rfl
@[simp] theorem State.setDelay_input (b : Byte) : (s.setDelay b).input = s.input := rfl
@[simp] theorem State.setDelay_pen (b : Byte) : (s.setDelay b).pen = s.pen := rfl
@[simp] theorem State.setDelay_ea (b : Byte) (k : Nat) : (s.setDelay b).ea k = s.ea k := rfl

/-! ### `setSound` -/

@[simp] theorem State.setSound_v (b : Byte) : (s.setSound b).v = s.v := rfl
@[simp] theorem State.setSound_i (b : Byte) : (s.setSound b).i = s.i := rfl
@[simp] theorem State.setSound_pc (b : Byte) : (s.setSound b).pc = s.pc := rfl
@[simp] theorem State.setSound_sp (b : Byte) : (s.setSound b).sp = s.sp := rfl
@[simp] theorem State.setSound_stack (b : Byte) : (s.setSound b).stack = s.stack := rfl
@[simp] theorem State.setSound_dt (b : Byte) : (s.setSound b).dt = s.dt := rfl
@[simp] theorem State.setSound_st (b : Byte) : (s.setSound b).st = b := rfl
@[simp] theorem State.setSound_tone (b : Byte) : (s.setSound b).tone = (toneAfter s.st b s.tone) := rfl
@[simp] theorem State.setSound_memory (b : Byte) : (s.setSound b).memory = s.memory := rfl
@[simp] theorem State.setSound_plane (b : Byte) : (s.setSound b).plane = s.plane := rfl
@[simp] theorem State.setSound_width (b : Byte) : (s.setSound b).width = s.width := rfl
@[simp] theorem State.setSound_fg (b : Byte) : (s.setSound b).fg = s.fg := rfl
@[simp] theorem State.setSound_bg (b : Byte) : (s.setSound b).bg = s.bg := rfl
@[simp] theorem State.setSound_dirty (b : Byte) : (s.setSound b).dirty = s.dirty := rfl
@[simp] theorem State.setSound_status (b : Byte) : (s.setSound b).status = s.status := rfl
@[simp] theorem State.setSound_events (b : Byte) : (s.setSound b).events = (s.events ++ toneEvents s.st b) := rfl
@[simp] theorem State.setSound_config (b : Byte) : (s.setSound b).config = s.config := rfl
@[simp] theorem State.setSound_inputs (b : Byte) : (s.setSound b).inputs = s.inputs := rfl
@[simp] theorem State.setSound_stepCount (b : Byte) : (s.setSound b).stepCount = s.stepCount := rfl
@[simp] theorem State.setSound_reg (b : Byte) (r' : Reg) : (s.setSound b).reg r' = s.reg r' := rfl
@[simp] theorem State.setSound_memRead (b : Byte) (a' : Nat) : (s.setSound b).memRead a' = s.memRead a' := rfl
@[simp] theorem State.setSound_cell (b : Byte) (px py : Nat) : (s.setSound b).cell px py = s.cell px py := rfl
@[simp] theorem State.setSound_input (b : Byte) : (s.setSound b).input = s.input := rfl
@[simp] theorem State.setSound_pen (b : Byte) : (s.setSound b).pen = s.pen := rfl
@[simp] theorem State.setSound_ea (b : Byte) (k : Nat) : (s.setSound b).ea k = s.ea k := rfl

/-! ### `timerGate` -/

@[simp] theorem State.timerGate_v : (s.timerGate).v = s.v := rfl
@[simp] theorem State.timerGate_i : (s.timerGate).i = s.i := rfl
@[simp] theorem State.timerGate_pc : (s.timerGate).pc = s.pc := rfl
@[simp] theorem State.timerGate_sp : (s.timerGate).sp = s.sp := rfl
@[simp] theorem State.timerGate_stack : (s.timerGate).stack = s.stack := rfl
@[simp] theorem State.timerGate_dt : (s.timerGate).dt = (timerAfter s.input.tick s.dt) := rfl
@[simp] theorem State.timerGate_st : (s.timerGate).st = (timerAfter s.input.tick s.st) := rfl
@[simp] theorem State.timerGate_tone : (s.timerGate).tone = (if soundStops s.input.tick s.st then false else s.tone) := rfl
@[simp] theorem State.timerGate_memory : (s.timerGate).memory = s.memory := rfl
@[simp] theorem State.timerGate_plane : (s.timerGate).plane = s.plane := rfl
@[simp] theorem State.timerGate_width : (s.timerGate).width = s.width := rfl
@[simp] theorem State.timerGate_fg : (s.timerGate).fg = s.fg := rfl
@[simp] theorem State.timerGate_bg : (s.timerGate).bg = s.bg := rfl
@[simp] theorem State.timerGate_dirty : (s.timerGate).dirty = s.dirty := rfl
@[simp] theorem State.timerGate_status : (s.timerGate).status = s.status := rfl
@[simp] theorem State.timerGate_events : (s.timerGate).events = (s.events ++ (if soundStops s.input.tick s.st then [.endTone] else [])) := rfl
@[simp] theorem State.timerGate_config : (s.timerGate).config = s.config := rfl
@[simp] theorem State.timerGate_inputs : (s.timerGate).inputs = s.inputs := rfl
@[simp] theorem State.timerGate_stepCount : (s.timerGate).stepCount = s.stepCount := rfl
@[simp] theorem State.timerGate_reg (r' : Reg) : (s.timerGate).reg r' = s.reg r' := rfl
@[simp] theorem State.timerGate_memRead (a' : Nat) : (s.timerGate).memRead a' = s.memRead a' := rfl
@[simp] theorem State.timerGate_cell (px py : Nat) : (s.timerGate).cell px py = s.cell px py := rfl
@[simp] theorem State.timerGate_input : (s.timerGate).input = s.input := rfl
@[simp] theorem State.timerGate_pen : (s.timerGate).pen = s.pen := rfl
@[simp] theorem State.timerGate_ea (k : Nat) : (s.timerGate).ea k = s.ea k := rfl

/-! ### `clear` -/

@[simp] theorem State.clear_v : (s.clear).v = s.v := rfl
@[simp] theorem State.clear_i : (s.clear).i = s.i := rfl
@[simp] theorem State.clear_pc : (s.clear).pc = s.pc := rfl
@[simp] theorem State.clear_sp : (s.clear).sp = s.sp := rfl
@[simp] theorem State.clear_stack : (s.clear).stack = s.stack := rfl
@[simp] theorem State.clear_dt : (s.clear).dt = s.dt := rfl
@[simp] theorem State.clear_st : (s.clear).st = s.st := rfl
@[simp] theorem State.clear_tone : (s.clear).tone = s.tone := rfl
@[simp] theorem State.clear_memory : (s.clear).memory = s.memory := rfl
@[simp] theorem State.clear_plane : (s.clear).plane = (Plane.fill s.width s.bg) := rfl
@[simp] theorem State.clear_width : (s.clear).width = s.width := rfl
@[simp] theorem State.clear_fg : (s.clear).fg = s.fg := rfl
@[simp] theorem State.clear_bg : (s.clear).bg = s.bg := rfl
@[simp] theorem State.clear_dirty : (s.clear).dirty = true := rfl
@[simp] theorem State.clear_status : (s.clear).status = s.status := rfl
@[simp] theorem State.clear_events : (s.clear).events = s.events := rfl
@[simp] theorem State.clear_config : (s.clear).config = s.config := rfl
@[simp] theorem State.clear_inputs : (s.clear).inputs = s.inputs := rfl
@[simp] theorem State.clear_stepCount : (s.clear).stepCount = s.stepCount := rfl
@[simp] theorem State.clear_reg (r' : Reg) : (s.clear).reg r' = s.reg r' := rfl
@[simp] theorem State.clear_memRead (a' : Nat) : (s.clear).memRead a' = s.memRead a' := rfl
@[simp] theorem State.clear_input : (s.clear).input = s.input := rfl
@[simp] theorem State.clear_pen : (s.clear).pen = s.pen := rfl
@[simp] theorem State.clear_ea (k : Nat) : (s.clear).ea k = s.ea k := rfl

/-! ### `resize` -/

@[simp] theorem State.resize_v (w : Width) : (s.resize w).v = s.v := rfl
@[simp] theorem State.resize_i (w : Width) : (s.resize w).i = s.i := rfl
@[simp] theorem State.resize_pc (w : Width) : (s.resize w).pc = s.pc := rfl
@[simp] theorem State.resize_sp (w : Width) : (s.resize w).sp = s.sp := rfl
@[simp] theorem State.resize_stack (w : Width) : (s.resize w).stack = s.stack := rfl
@[simp] theorem State.resize_dt (w : Width) : (s.resize w).dt = s.dt := rfl
@[simp] theorem State.resize_st (w : Width) : (s.resize w).st = s.st := rfl
@[simp] theorem State.resize_tone (w : Width) : (s.resize w).tone = s.tone := rfl
@[simp] theorem State.resize_memory (w : Width) : (s.resize w).memory = s.memory := rfl
@[simp] theorem State.resize_plane (w : Width) : (s.resize w).plane = (Plane.fill w s.bg) := rfl
@[simp] theorem State.resize_width (w : Width) : (s.resize w).width = w := rfl
@[simp] theorem State.resize_fg (w : Width) : (s.resize w).fg = s.fg := rfl
@[simp] theorem State.resize_bg (w : Width) : (s.resize w).bg = s.bg := rfl
@[simp] theorem State.resize_dirty (w : Width) : (s.resize w).dirty = true := rfl
@[simp] theorem State.resize_status (w : Width) : (s.resize w).status = s.status := rfl
@[simp] theorem State.resize_events (w : Width) : (s.resize w).events = (s.events ++ [.resize w]) := rfl
@[simp] theorem State.resize_config (w : Width) : (s.resize w).config = s.config := rfl
@[simp] theorem State.resize_inputs (w : Width) : (s.resize w).inputs = s.inputs := rfl
@[simp] theorem State.resize_stepCount (w : Width) : (s.resize w).stepCount = s.stepCount := rfl
@[simp] theorem State.resize_reg (w : Width) (r' : Reg) : (s.resize w).reg r' = s.reg r' := rfl
@[simp] theorem State.resize_memRead (w : Width) (a' : Nat) : (s.resize w).memRead a' = s.memRead a' := rfl
@[simp] theorem State.resize_input (w : Width) : (s.resize w).input = s.input := rfl
@[simp] theorem State.resize_ea (w : Width) (k : Nat) : (s.resize w).ea k = s.ea k := rfl

/-! ### `redraw` -/

@[simp] theorem State.redraw_v (f : Nat → Nat → Byte) : (s.redraw f).v = s.v := rfl
@[simp] theorem State.redraw_i (f : Nat → Nat → Byte) : (s.redraw f).i = s.i := rfl
@[simp] theorem State.redraw_pc (f : Nat → Nat → Byte) : (s.redraw f).pc = s.pc := rfl
@[simp] theorem State.redraw_sp (f : Nat → Nat → Byte) : (s.redraw f).sp = s.sp := rfl
@[simp] theorem State.redraw_stack (f : Nat → Nat → Byte) : (s.redraw f).stack = s.stack := rfl
@[simp] theorem State.redraw_dt (f : Nat → Nat → Byte) : (s.redraw f).dt = s.dt := rfl
@[simp] theorem State.redraw_st (f : Nat → Nat → Byte) : (s.redraw f).st = s.st := rfl
@[simp] theorem State.redraw_tone (f : Nat → Nat → Byte) : (s.redraw f).tone = s.tone := rfl
@[simp] theorem State.redraw_memory (f : Nat → Nat → Byte) : (s.redraw f).memory = s.memory := rfl
@[simp] theorem State.redraw_plane (f : Nat → Nat → Byte) : (s.redraw f).plane = (Plane.tabulate s.width f) := rfl
@[simp] theorem State.redraw_width (f : Nat → Nat → Byte) : (s.redraw f).width = s.width := rfl
@[simp] theorem State.redraw_fg (f : Nat → Nat → Byte) : (s.redraw f).fg = s.fg := rfl
@[simp] theorem State.redraw_bg (f : Nat → Nat → Byte) : (s.redraw f).bg = s.bg := rfl
@[simp] theorem State.redraw_dirty (f : Nat → Nat → Byte) : (s.redraw f).dirty = true := rfl
@[simp] theorem State.redraw_status (f : Nat → Nat → Byte) : (s.redraw f).status = s.status := rfl
@[simp] theorem State.redraw_events (f : Nat → Nat → Byte) : (s.redraw f).events = s.events := rfl
@[simp] theorem State.redraw_config (f : Nat → Nat → Byte) : (s.redraw f).config = s.config := rfl
@[simp] theorem State.redraw_inputs (f : Nat → Nat → Byte) : (s.redraw f).inputs = s.inputs := rfl
@[simp] theorem State.redraw_stepCount (f : Nat → Nat → Byte) : (s.redraw f).stepCount = s.stepCount := rfl
@[simp] theorem State.redraw_reg (f : Nat → Nat → Byte) (r' : Reg) : (s.redraw f).reg r' = s.reg r' := rfl
@[simp] theorem State.redraw_memRead (f : Nat → Nat → Byte) (a' : Nat) : (s.redraw f).memRead a' = s.memRead a' := rfl
@[simp] theorem State.redraw_input (f : Nat → Nat → Byte) : (s.redraw f).input = s.input := rfl
@[simp] theorem State.redraw_pen (f : Nat → Nat → Byte) : (s.redraw f).pen = s.pen := rfl
@[simp] theorem State.redraw_ea (f : Nat → Nat → Byte) (k : Nat) : (s.redraw f).ea k = s.ea k := rfl

/-! ### `plotPixels` -/

@[simp] theorem State.plotPixels_v (ps : List (Nat × Nat)) : (s.plotPixels ps).v = s.v := rfl
@[simp] theorem State.plotPixels_i (ps : List (Nat × Nat)) : (s.plotPixels ps).i = s.i := rfl
@[simp] theorem State.plotPixels_pc (ps : List (Nat × Nat)) : (s.plotPixels ps).pc = s.pc := rfl
@[simp] theorem State.plotPixels_sp (ps : List (Nat × Nat)) : (s.plotPixels ps).sp = s.sp := rfl
@[simp] theorem State.plotPixels_stack (ps : List (Nat × Nat)) : (s.plotPixels ps).stack = s.stack := rfl
@[simp] theorem State.plotPixels_dt (ps : List (Nat × Nat)) : (s.plotPixels ps).dt = s.dt := rfl
@[simp] theorem State.plotPixels_st (ps : List (Nat × Nat)) : (s.plotPixels ps).st = s.st := rfl
@[simp] theorem State.plotPixels_tone (ps : List (Nat × Nat)) : (s.plotPixels ps).tone = s.tone := rfl
@[simp] theorem State.plotPixels_memory (ps : List (Nat × Nat)) : (s.plotPixels ps).memory = s.memory := rfl
@[simp] theorem State.plotPixels_plane (ps : List (Nat × Nat)) : (s.plotPixels ps).plane = ((plotAll s.pen ps s.plane).1) := rfl
@[simp] theorem State.plotPixels_width (ps : List (Nat × Nat)) : (s.plotPixels ps).width = s.width := rfl
@[simp] theorem State.plotPixels_fg (ps : List (Nat × Nat)) : (s.plotPixels ps).fg = s.fg := rfl
@[simp] theorem State.plotPixels_bg (ps : List (Nat × Nat)) : (s.plotPixels ps).bg = s.bg := rfl
@[simp] theorem State.plotPixels_dirty (ps : List (Nat × Nat)) : (s.plotPixels ps).dirty = true := rfl
@[simp] theorem State.plotPixels_status (ps : List (Nat × Nat)) : (s.plotPixels ps).status = s.status := rfl
@[simp] theorem State.plotPixels_events (ps : List (Nat × Nat)) : (s.plotPixels ps).events = s.events := rfl
@[simp] theorem State.plotPixels_config (ps : List (Nat × Nat)) : (s.plotPixels ps).config = s.config := rfl
@[simp] theorem State.plotPixels_inputs (ps : List (Nat × Nat)) : (s.plotPixels ps).inputs = s.inputs := rfl
@[simp] theorem State.plotPixels_stepCount (ps : List (Nat × Nat)) : (s.plotPixels ps).stepCount = s.stepCount := rfl
@[simp] theorem State.plotPixels_reg (ps : List (Nat × Nat)) (r' : Reg) : (s.plotPixels ps).reg r' = s.reg r' := rfl
@[simp] theorem State.plotPixels_memRead (ps : List (Nat × Nat)) (a' : Nat) : (s.plotPixels ps).memRead a' = s.memRead a' := rfl
@[simp] theorem State.plotPixels_input (ps : List (Nat × Nat)) : (s.plotPixels ps).input = s.input := rfl
@[simp] theorem State.plotPixels_pen (ps : List (Nat × Nat)) : (s.plotPixels ps).pen = s.pen := rfl
@[simp] theorem State.plotPixels_ea (ps : List (Nat × Nat)) (k : Nat) : (s.plotPixels ps).ea k = s.ea k := rfl

/-! ### `setColours` -/

@[simp] theorem State.setColours_v (f b : Byte) : (s.setColours f b).v = s.v := rfl
@[simp] theorem State.setColours_i (f b : Byte) : (s.setColours f b).i = s.i := rfl
@[simp] theorem State.setColours_pc (f b : Byte) : (s.setColours f b).pc = s.pc := rfl
@[simp] theorem State.setColours_sp (f b : Byte) : (s.setColours f b).sp = s.sp := rfl
@[simp] theorem State.setColours_stack (f b : Byte) : (s.setColours f b).stack = s.stack := rfl
@[simp] theorem State.setColours_dt (f b : Byte) : (s.setColours f b).dt = s.dt := rfl
@[simp] theorem State.setColours_st (f b : Byte) : (s.setColours f b).st = s.st := rfl
@[simp] theorem State.setColours_tone (f b : Byte) : (s.setColours f b).tone = s.tone := rfl
@[simp] theorem State.setColours_memory (f b : Byte) : (s.setColours f b).memory = s.memory := rfl
@[simp] theorem State.setColours_plane (f b : Byte) : (s.setColours f b).plane = s.plane := rfl
@[simp] theorem State.setColours_width (f b : Byte) : (s.setColours f b).width = s.width := rfl
@[simp] theorem State.setColours_fg (f b : Byte) : (s.setColours f b).fg = f := rfl
@[simp] theorem State.setColours_bg (f b : Byte) : (s.setColours f b).bg = b := rfl
@[simp] theorem State.setColours_dirty (f b : Byte) : (s.setColours f b).dirty = s.dirty := rfl
@[simp] theorem State.setColours_status (f b : Byte) : (s.setColours f b).status = s.status := rfl
@[simp] theorem State.setColours_events (f b : Byte) : (s.setColours f b).events = s.events := rfl
@[simp] theorem State.setColours_config (f b : Byte) : (s.setColours f b).config = s.config := rfl
@[simp] theorem State.setColours_inputs (f b : Byte) : (s.setColours f b).inputs = s.inputs := rfl
@[simp] theorem State.setColours_stepCount (f b : Byte) : (s.setColours f b).stepCount = s.stepCount := rfl
@[simp] theorem State.setColours_reg (f b : Byte) (r' : Reg) : (s.setColours f b).reg r' = s.reg r' := rfl
@[simp] theorem State.setColours_memRead (f b : Byte) (a' : Nat) : (s.setColours f b).memRead a' = s.memRead a' := rfl
@[simp] theorem State.setColours_cell (f b : Byte) (px py : Nat) : (s.setColours f b).cell px py = s.cell px py := rfl
@[simp] theorem State.setColours_input (f b : Byte) : (s.setColours f b).input = s.input := rfl
@[simp] theorem State.setColours_ea (f b : Byte) (k : Nat) : (s.setColours f b).ea k = s.ea k := rfl

/-! ### `raise` -/

@[simp] theorem State.raise_v (c : Status) : (s.raise c).v = s.v := rfl
@[simp] theorem State.raise_i (c : Status) : (s.raise c).i = s.i := rfl
@[simp] theorem State.raise_pc (c : Status) : (s.raise c).pc = s.pc := rfl
@[simp] theorem State.raise_sp (c : Status) : (s.raise c).sp = s.sp := rfl
@[simp] theorem State.raise_stack (c : Status) : (s.raise c).stack = s.stack := rfl
@[simp] theorem State.raise_dt (c : Status) : (s.raise c).dt = s.dt := rfl
@[simp] theorem State.raise_st (c : Status) : (s.raise c).st = s.st := rfl
@[simp] theorem State.raise_tone (c : Status) : (s.raise c).tone = s.tone := rfl
@[simp] theorem State.raise_memory (c : Status) : (s.raise c).memory = s.memory := rfl
@[simp] theorem State.raise_plane (c : Status) : (s.raise c).plane = s.plane := rfl
@[simp] theorem State.raise_width (c : Status) : (s.raise c).width = s.width := rfl
@[simp] theorem State.raise_fg (c : Status) : (s.raise c).fg = s.fg := rfl
@[simp] theorem State.raise_bg (c : Status) : (s.raise c).bg = s.bg := rfl
@[simp] theorem State.raise_dirty (c : Status) : (s.raise c).dirty = s.dirty := rfl
@[simp] theorem State.raise_status (c : Status) : (s.raise c).status = c := rfl
@[simp] theorem State.raise_events (c : Status) : (s.raise c).events = s.events := rfl
@[simp] theorem State.raise_config (c : Status) : (s.raise c).config = s.config := rfl
@[simp] theorem State.raise_inputs (c : Status) : (s.raise c).inputs = s.inputs := rfl
@[simp] theorem State.raise_stepCount (c : Status) : (s.raise c).stepCount = s.stepCount := rfl
@[simp] theorem State.raise_reg (c : Status) (r' : Reg) : (s.raise c).reg r' = s.reg r' := rfl
@[simp] theorem State.raise_memRead (c : Status) (a' : Nat) : (s.raise c).memRead a' = s.memRead a' := rfl
@[simp] theorem State.raise_cell (c : Status) (px py : Nat) : (s.raise c).cell px py = s.cell px py := rfl
@[simp] theorem State.raise_input (c : Status) : (s.raise c).input = s.input := rfl
@[simp] theorem State.raise_pen (c : Status) : (s.raise c).pen = s.pen := rfl
@[simp] theorem State.raise_ea (c : Status) (k : Nat) : (s.raise c).ea k = s.ea k := rfl

/-! ### `setResultAndFlag` -/

@[simp] theorem State.setResultAndFlag_v (x : Reg) (r f : Byte) : (s.setResultAndFlag x r f).v = ((s.v.set x r).set vf f) := rfl
@[simp] theorem State.setResultAndFlag_i (x : Reg) (r f : Byte) : (s.setResultAndFlag x r f).i = s.i := rfl
@[simp] theorem State.setResultAndFlag_pc (x : Reg) (r f : Byte) : (s.setResultAndFlag x r f).pc = s.pc := rfl
@[simp] theorem State.setResultAndFlag_sp (x : Reg) (r f : Byte) : (s.setResultAndFlag x r f).sp = s.sp := rfl
@[simp] theorem State.setResultAndFlag_stack (x : Reg) (r f : Byte) : (s.setResultAndFlag x r f).stack = s.stack := rfl
@[simp] theorem State.setResultAndFlag_dt (x : Reg) (r f : Byte) : (s.setResultAndFlag x r f).dt = s.dt := rfl
@[simp] theorem State.setResultAndFlag_st (x : Reg) (r f : Byte) : (s.setResultAndFlag x r f).st = s.st := rfl
@[simp] theorem State.setResultAndFlag_tone (x : Reg) (r f : Byte) : (s.setResultAndFlag x r f).tone = s.tone := rfl
@[simp] theorem State.setResultAndFlag_memory (x : Reg) (r f : Byte) : (s.setResultAndFlag x r f).memory = s.memory := rfl
@[simp] theorem State.setResultAndFlag_plane (x : Reg) (r f : Byte) : (s.setResultAndFlag x r f).plane = s.plane := rfl
@[simp] theorem State.setResultAndFlag_width (x : Reg) (r f : Byte) : (s.setResultAndFlag x r f).width = s.width := rfl
@[simp] theorem State.setResultAndFlag_fg (x : Reg) (r f : Byte) : (s.setResultAndFlag x r f).fg = s.fg := rfl
@[simp] theorem State.setResultAndFlag_bg (x : Reg) (r f : Byte) : (s.setResultAndFlag x r f).bg = s.bg := rfl
@[simp] theorem State.setResultAndFlag_dirty (x : Reg) (r f : Byte) : (s.setResultAndFlag x r f).dirty = s.dirty := rfl
@[simp] theorem State.setResultAndFlag_status (x : Reg) (r f : Byte) : (s.setResultAndFlag x r f).status = s.status := rfl
@[simp] theorem State.setResultAndFlag_events (x : Reg) (r f : Byte) : (s.setResultAndFlag x r f).events = s.events := rfl
@[simp] theorem State.setResultAndFlag_config (x : Reg) (r f : Byte) : (s.setResultAndFlag x r f).config = s.config := rfl
@[simp] theorem State.setResultAndFlag_inputs (x : Reg) (r f : Byte) : (s.setResultAndFlag x r f).inputs = s.inputs := rfl
@[simp] theorem State.setResultAndFlag_stepCount (x : Reg) (r f : Byte) : (s.setResultAndFlag x r f).stepCount = s.stepCount := rfl
@[simp] theorem State.setResultAndFlag_memRead (x : Reg) (r f : Byte) (a' : Nat) : (s.setResultAndFlag x r f).memRead a' = s.memRead a' := rfl
@[simp] theorem State.setResultAndFlag_cell (x : Reg) (r f : Byte) (px py : Nat) : (s.setResultAndFlag x r f).cell px py = s.cell px py := rfl
@[simp] theorem State.setResultAndFlag_input (x : Reg) (r f : Byte) : (s.setResultAndFlag x r f).input = s.input := rfl
@[simp] theorem State.setResultAndFlag_pen (x : Reg) (r f : Byte) : (s.setResultAndFlag x r f).pen = s.pen := rfl
@[simp] theorem State.setResultAndFlag_ea (x : Reg) (r f : Byte) (k : Nat) : (s.setResultAndFlag x r f).ea k = s.ea k := rfl

/-! ### `restart` -/

@[simp] theorem State.restart_v : (s.restart).v = (Vector.replicate 16 0) := rfl
@[simp] theorem State.restart_i : (s.restart).i = 0 := rfl
@[simp] theorem State.restart_pc : (s.restart).pc = progBase := rfl
@[simp] theorem State.restart_sp : (s.restart).sp = 0 := rfl
@[simp] theorem State.restart_stack : (s.restart).stack = (Vector.replicate 16 0) := rfl
@[simp] theorem State.restart_dt : (s.restart).dt = 0 := rfl
@[simp] theorem State.restart_st : (s.restart).st = 0 := rfl
@[simp] theorem State.restart_tone : (s.restart).tone = false := rfl
@[simp] theorem State.restart_memory : (s.restart).memory = ([]) := rfl
@[simp] theorem State.restart_plane : (s.restart).plane = (Plane.fill resetWidth resetBg) := rfl
@[simp] theorem State.restart_width : (s.restart).width = resetWidth := rfl
@[simp] theorem State.restart_fg : (s.restart).fg = resetFg := rfl
@[simp] theorem State.restart_bg : (s.restart).bg = resetBg := rfl
@[simp] theorem State.restart_dirty : (s.restart).dirty = true := rfl
@[simp] theorem State.restart_status : (s.restart).status = .running := rfl
@[simp] theorem State.restart_events : (s.restart).events = (s.events ++ (if s.tone then [.endTone] else []) ++ [.loadProgram]) := rfl
@[simp] theorem State.restart_config : (s.restart).config = s.config := rfl
@[simp] theorem State.restart_inputs : (s.restart).inputs = s.inputs := rfl
@[simp] theorem State.restart_stepCount : (s.restart).stepCount = s.stepCount := rfl
@[simp] theorem State.restart_input : (s.restart).input = s.input := rfl

/-! ### `beginStep` -/

@[simp] theorem State.beginStep_v : (s.beginStep).v = s.v := rfl
@[simp] theorem State.beginStep_i : (s.beginStep).i = s.i := rfl
@[simp] theorem State.beginStep_pc : (s.beginStep).pc = s.pc := rfl
@[simp] theorem State.beginStep_sp : (s.beginStep).sp = s.sp := rfl
@[simp] theorem State.beginStep_stack : (s.beginStep).stack = s.stack := rfl
@[simp] theorem State.beginStep_dt : (s.beginStep).dt = s.dt := rfl
@[simp] theorem State.beginStep_st : (s.beginStep).st = s.st := rfl
@[simp] theorem State.beginStep_tone : (s.beginStep).tone = s.tone := rfl
@[simp] theorem State.beginStep_memory : (s.beginStep).memory = s.memory := rfl
@[simp] theorem State.beginStep_plane : (s.beginStep).plane = s.plane := rfl
@[simp] theorem State.beginStep_width : (s.beginStep).width = s.width := rfl
@[simp] theorem State.beginStep_fg : (s.beginStep).fg = s.fg := rfl
@[simp] theorem State.beginStep_bg : (s.beginStep).bg = s.bg := rfl
@[simp] theorem State.beginStep_dirty : (s.beginStep).dirty = s.dirty := rfl
@[simp] theorem State.beginStep_status : (s.beginStep).status = s.status := rfl
@[simp] theorem State.beginStep_events : (s.beginStep).events = ([]) := rfl
@[simp] theorem State.beginStep_config : (s.beginStep).config = s.config := rfl
@[simp] theorem State.beginStep_inputs : (s.beginStep).inputs = s.inputs := rfl
@[simp] theorem State.beginStep_stepCount : (s.beginStep).stepCount = s.stepCount := rfl
@[simp] theorem State.beginStep_reg (r' : Reg) : (s.beginStep).reg r' = s.reg r' := rfl
@[simp] theorem State.beginStep_memRead (a' : Nat) : (s.beginStep).memRead a' = s.memRead a' := rfl
@[simp] theorem State.beginStep_cell (px py : Nat) : (s.beginStep).cell px py = s.cell px py := rfl
@[simp] theorem State.beginStep_input : (s.beginStep).input = s.input := rfl
@[simp] theorem State.beginStep_pen : (s.beginStep).pen = s.pen := rfl
@[simp] theorem State.beginStep_ea (k : Nat) : (s.beginStep).ea k = s.ea k := rfl

/-! ### `nextInputs` -/

@[simp] theorem State.nextInputs_v : (s.nextInputs).v = s.v := rfl
@[simp] theorem State.nextInputs_i : (s.nextInputs).i = s.i := rfl
@[simp] theorem State.nextInputs_pc : (s.nextInputs).pc = s.pc := rfl
@[simp] theorem State.nextInputs_sp : (s.nextInputs).sp = s.sp := rfl
@[simp] theorem State.nextInputs_stack : (s.nextInputs).stack = s.stack := rfl
@[simp] theorem State.nextInputs_dt : (s.nextInputs).dt = s.dt := rfl
@[simp] theorem State.nextInputs_st : (s.nextInputs).st = s.st := rfl
@[simp] theorem State.nextInputs_tone : (s.nextInputs).tone = s.tone := rfl
@[simp] theorem State.nextInputs_memory : (s.nextInputs).memory = s.memory := rfl
@[simp] theorem State.nextInputs_plane : (s.nextInputs).plane = s.plane := rfl
@[simp] theorem State.nextInputs_width : (s.nextInputs).width = s.width := rfl
@[simp] theorem State.nextInputs_fg : (s.nextInputs).fg = s.fg := rfl
@[simp] theorem State.nextInputs_bg : (s.nextInputs).bg = s.bg := rfl
@[simp] theorem State.nextInputs_dirty : (s.nextInputs).dirty = s.dirty := rfl
@[simp] theorem State.nextInputs_status : (s.nextInputs).status = s.status := rfl
@[simp] theorem State.nextInputs_events : (s.nextInputs).events = s.events := rfl
@[simp] theorem State.nextInputs_config : (s.nextInputs).config = s.config := rfl
@[simp] theorem State.nextInputs_inputs : (s.nextInputs).inputs = s.inputs.tail := rfl
@[simp] theorem State.nextInputs_stepCount : (s.nextInputs).stepCount = (s.stepCount + 1) := rfl
@[simp] theorem State.nextInputs_reg (r' : Reg) : (s.nextInputs).reg r' = s.reg r' := rfl
@[simp] theorem State.nextInputs_memRead (a' : Nat) : (s.nextInputs).memRead a' = s.memRead a' := rfl
@[simp] theorem State.nextInputs_cell (px py : Nat) : (s.nextInputs).cell px py = s.cell px py := rfl
@[simp] theorem State.nextInputs_pen : (s.nextInputs).pen = s.pen := rfl
@[simp] theorem State.nextInputs_ea (k : Nat) : (s.nextInputs).ea k = s.ea k := rfl

/-! ### `placeOpcode` -/

@[simp] theorem State.placeOpcode_v (op : Word) : (s.placeOpcode op).v = s.v := rfl
@[simp] theorem State.placeOpcode_i (op : Word) : (s.placeOpcode op).i = s.i := rfl
@[simp] theorem State.placeOpcode_pc (op : Word) : (s.placeOpcode op).pc = s.pc := rfl
@[simp] theorem State.placeOpcode_sp (op : Word) : (s.placeOpcode op).sp = s.sp := rfl
@[simp] theorem State.placeOpcode_stack (op : Word) : (s.placeOpcode op).stack = s.stack := rfl
@[simp] theorem State.placeOpcode_dt (op : Word) : (s.placeOpcode op).dt = s.dt := rfl
@[simp] theorem State.placeOpcode_st (op : Word) : (s.placeOpcode op).st = s.st := rfl
@[simp] theorem State.placeOpcode_tone (op : Word) : (s.placeOpcode op).tone = s.tone := rfl
@[simp] theorem State.placeOpcode_memory (op : Word) : (s.placeOpcode op).memory = (Memory.store s.config s.memory s.pc.toNat [opcodeHigh op, opcodeLow op]) := rfl
@[simp] theorem State.placeOpcode_plane (op : Word) : (s.placeOpcode op).plane = s.plane := rfl
@[simp] theorem State.placeOpcode_width (op : Word) : (s.placeOpcode op).width = s.width := rfl
@[simp] theorem State.placeOpcode_fg (op : Word) : (s.placeOpcode op).fg = s.fg := rfl
@[simp] theorem State.placeOpcode_bg (op : Word) : (s.placeOpcode op).bg = s.bg := rfl
@[simp] theorem State.placeOpcode_dirty (op : Word) : (s.placeOpcode op).dirty = s.dirty := rfl
@[simp] theorem State.placeOpcode_status (op : Word) : (s.placeOpcode op).status = .running := rfl
@[simp] theorem State.placeOpcode_events (op : Word) : (s.placeOpcode op).events = s.events := rfl
@[simp] theorem State.placeOpcode_config (op : Word) : (s.placeOpcode op).config = s.config := rfl
@[simp] theorem State.placeOpcode_inputs (op : Word) : (s.placeOpcode op).inputs = s.inputs := rfl
@[simp] theorem State.placeOpcode_stepCount (op : Word) : (s.placeOpcode op).stepCount = s.stepCount := rfl
@[simp] theorem State.placeOpcode_reg (op : Word) (r' : Reg) : (s.placeOpcode op).reg r' = s.reg r' := rfl
@[simp] theorem State.placeOpcode_cell (op : Word) (px py : Nat) : (s.placeOpcode op).cell px py = s.cell px py := rfl
@[simp] theorem State.placeOpcode_input (op : Word) : (s.placeOpcode op).input = s.input := rfl
@[simp] theorem State.placeOpcode_pen (op : Word) : (s.placeOpcode op).pen = s.pen := rfl
@[simp] theorem State.placeOpcode_ea (op : Word) (k : Nat) : (s.placeOpcode op).ea k = s.ea k := rfl

/-! ### `refresh` -/

@[simp] theorem State.refresh_v : (s.refresh).v = s.v := rfl
@[simp] theorem State.refresh_i : (s.refresh).i = s.i := rfl
@[simp] theorem State.refresh_pc : (s.refresh).pc = s.pc := rfl
@[simp] theorem State.refresh_sp : (s.refresh).sp = s.sp := rfl
@[simp] theorem State.refresh_stack : (s.refresh).stack = s.stack := rfl
@[simp] theorem State.refresh_dt : (s.refresh).dt = s.dt := rfl
@[simp] theorem State.refresh_st : (s.refresh).st = s.st := rfl
@[simp] theorem State.refresh_tone : (s.refresh).tone = s.tone := rfl
@[simp] theorem State.refresh_memory : (s.refresh).memory = s.memory := rfl
@[simp] theorem State.refresh_plane : (s.refresh).plane = s.plane := rfl
@[simp] theorem State.refresh_width : (s.refresh).width = s.width := rfl
@[simp] theorem State.refresh_fg : (s.refresh).fg = s.fg := rfl
@[simp] theorem State.refresh_bg : (s.refresh).bg = s.bg := rfl
@[simp] theorem State.refresh_dirty : (s.refresh).dirty = false := rfl
@[simp] theorem State.refresh_status : (s.refresh).status = s.status := rfl
@[simp] theorem State.refresh_events : (s.refresh).events = (if s.dirty then [.draw s.liveCells s.width] else []) := rfl
@[simp] theorem State.refresh_config : (s.refresh).config = s.config := rfl
@[simp] theorem State.refresh_inputs : (s.refresh).inputs = s.inputs := rfl
@[simp] theorem State.refresh_stepCount : (s.refresh).stepCount = s.stepCount := rfl
@[simp] theorem State.refresh_reg (r' : Reg) : (s.refresh).reg r' = s.reg r' := rfl
@[simp] theorem State.refresh_memRead (a' : Nat) : (s.refresh).memRead a' = s.memRead a' := rfl
@[simp] theorem State.refresh_cell (px py : Nat) : (s.refresh).cell px py = s.cell px py := rfl
@[simp] theorem State.refresh_input : (s.refresh).input = s.input := rfl
@[simp] theorem State.refresh_pen : (s.refresh).pen = s.pen := rfl
@[simp] theorem State.refresh_ea (k : Nat) : (s.refresh).ea k = s.ea k := rfl

/-! ### `withInputs` -/

@[simp] theorem State.withInputs_v (inp : Inputs) : (s.withInputs inp).v = s.v := rfl
@[simp] theorem State.withInputs_i (inp : Inputs) : (s.withInputs inp).i = s.i := rfl
@[simp] theorem State.withInputs_pc (inp : Inputs) : (s.withInputs inp).pc = s.pc := rfl
@[simp] theorem State.withInputs_sp (inp : Inputs) : (s.withInputs inp).sp = s.sp := rfl
@[simp] theorem State.withInputs_stack (inp : Inputs) : (s.withInputs inp).stack = s.stack := rfl
@[simp] theorem State.withInputs_dt (inp : Inputs) : (s.withInputs inp).dt = s.dt := rfl
@[simp] theorem State.withInputs_st (inp : Inputs) : (s.withInputs inp).st = s.st := rfl
@[simp] theorem State.withInputs_tone (inp : Inputs) : (s.withInputs inp).tone = s.tone := rfl
@[simp] theorem State.withInputs_memory (inp : Inputs) : (s.withInputs inp).memory = s.memory := rfl
@[simp] theorem State.withInputs_plane (inp : Inputs) : (s.withInputs inp).plane = s.plane := rfl
@[simp] theorem State.withInputs_width (inp : Inputs) : (s.withInputs inp).width = s.width := rfl
@[simp] theorem State.withInputs_fg (inp : Inputs) : (s.withInputs inp).fg = s.fg := rfl
@[simp] theorem State.withInputs_bg (inp : Inputs) : (s.withInputs inp).bg = s.bg := rfl
@[simp] theorem State.withInputs_dirty (inp : Inputs) : (s.withInputs inp).dirty = s.dirty := rfl
@[simp] theorem State.withInputs_status (inp : Inputs) : (s.withInputs inp).status = s.status := rfl
@[simp] theorem State.withInputs_events (inp : Inputs) : (s.withInputs inp).events = s.events := rfl
@[simp] theorem State.withInputs_config (inp : Inputs) : (s.withInputs inp).config = s.config := rfl
@[simp] theorem State.withInputs_inputs (inp : Inputs) : (s.withInputs inp).inputs = (inp :: s.inputs) := rfl
@[simp] theorem State.withInputs_stepCount (inp : Inputs) : (s.withInputs inp).stepCount = s.stepCount := rfl
@[simp] theorem State.withInputs_reg (inp : Inputs) (r' : Reg) : (s.withInputs inp).reg r' = s.reg r' := rfl
@[simp] theorem State.withInputs_memRead (inp : Inputs) (a' : Nat) : (s.withInputs inp).memRead a' = s.memRead a' := rfl
@[simp] theorem State.withInputs_cell (inp : Inputs) (px py : Nat) : (s.withInputs inp).cell px py = s.cell px py := rfl
@[simp] theorem State.withInputs_pen (inp : Inputs) : (s.withInputs inp).pen = s.pen := rfl
@[simp] theorem State.withInputs_ea (inp : Inputs) (k : Nat) : (s.withInputs inp).ea k = s.ea k := rfl

/-! ### `hostReset` -/

@[simp] theorem State.hostReset_v (image : List Byte) : (s.hostReset image).v = (Vector.replicate 16 0) := rfl
@[simp] theorem State.hostReset_i (image : List Byte) : (s.hostReset image).i = 0 := rfl
@[simp] theorem State.hostReset_pc (image : List Byte) : (s.hostReset image).pc = progBase := rfl
@[simp] theorem State.hostReset_sp (image : List Byte) : (s.hostReset image).sp = 0 := rfl
@[simp] theorem State.hostReset_stack (image : List Byte) : (s.hostReset image).stack = (Vector.replicate 16 0) := rfl
@[simp] theorem State.hostReset_dt (image : List Byte) : (s.hostReset image).dt = 0 := rfl
@[simp] theorem State.hostReset_st (image : List Byte) : (s.hostReset image).st = 0 := rfl
@[simp] theorem State.hostReset_tone (image : List Byte) : (s.hostReset image).tone = false := rfl
@[simp] theorem State.hostReset_memory (image : List Byte) : (s.hostReset image).memory = ([]) := rfl
@[simp] theorem State.hostReset_plane (image : List Byte) : (s.hostReset image).plane = (Plane.fill resetWidth resetBg) := rfl
@[simp] theorem State.hostReset_width (image : List Byte) : (s.hostReset image).width = resetWidth := rfl
@[simp] theorem State.hostReset_fg (image : List Byte) : (s.hostReset image).fg = resetFg := rfl
@[simp] theorem State.hostReset_bg (image : List Byte) : (s.hostReset image).bg = resetBg := rfl
@[simp] theorem State.hostReset_dirty (image : List Byte) : (s.hostReset image).dirty = true := rfl
@[simp] theorem State.hostReset_status (image : List Byte) : (s.hostReset image).status = .running := rfl
@[simp] theorem State.hostReset_events (image : List Byte) : (s.hostReset image).events = ((if s.tone then [.endTone] else []) ++ [.loadProgram]) := rfl
@[simp] theorem State.hostReset_config (image : List Byte) : (s.hostReset image).config = ({ s.config with image := image }) := rfl
@[simp] theorem State.hostReset_inputs (image : List Byte) : (s.hostReset image).inputs = s.inputs := rfl
@[simp] theorem State.hostReset_stepCount (image : List Byte) : (s.hostReset image).stepCount = s.stepCount := rfl
@[simp] theorem State.hostReset_input (image : List Byte) : (s.hostReset image).input = s.input := rfl

end Sys2Proof.Machine
end

