-- ==== Sys2Proof/Laws/Ops.lean ====
section
/-! SUPPORT. For each shared operation, once, everything it can do: registers, flags, memory, timers, the plane, fetch,
and the shape of a step. Proofs cite these and do not unfold the operations. -/

namespace Sys2Proof.Machine

open Host (Outcome)

variable {s : State}

/-! ### Registers and flags -/

/-- A register after a register is written (spec/10_state.md R20). -/
@[simp] theorem State.reg_setReg (s : State) (r : Reg) (b : Byte) (r' : Reg) :
    (s.setReg r b).reg r' = if r' = r then b else s.reg r' := by
  unfold State.setReg State.reg
  by_cases h : r' = r
  · subst h; simp
  · have hne : r.val ≠ r'.val := fun hv => h (Fin.ext hv.symm)
    simp [h, Vector.getElem_set_ne, hne]

/-- Result and flag: `VF` holds the flag, `V[x]` the result unless it is `VF`, every other register is as before
(spec/42_alu.md R143). -/
@[simp] theorem State.reg_setResultAndFlag (s : State) (x : Reg) (r f : Byte) (r' : Reg) :
    (s.setResultAndFlag x r f).reg r' = if r' = vf then f else if r' = x then r else s.reg r' := by
  unfold State.setResultAndFlag
  rw [State.reg_setReg, State.reg_setReg]

theorem flagByte_eq_one {b : Bool} : flagByte b = 1 ↔ b = true := by cases b <;> decide
theorem flagByte_eq_zero {b : Bool} : flagByte b = 0 ↔ b = false := by cases b <;> decide
theorem flagByte_zero_or_one (b : Bool) : flagByte b = 0 ∨ flagByte b = 1 := by cases b <;> decide

theorem carryFlag_eq (a b : Byte) : carryFlag a b = if 256 ≤ a.toNat + b.toNat then 1 else 0 := by
  unfold carryFlag flagByte
  by_cases h : 256 ≤ a.toNat + b.toNat <;> simp [h]

theorem noBorrowFlag_eq (a b : Byte) : noBorrowFlag a b = if b.toNat ≤ a.toNat then 1 else 0 := by
  unfold noBorrowFlag flagByte
  by_cases h : b.toNat ≤ a.toNat
  · rw [if_pos h, if_pos]; simp; omega
  · rw [if_neg h, if_neg]; simp; omega

/-- The registers after a block load: the first `n` hold `f`, the others are as before (spec/43_index_memory.md R156). -/
theorem loadUpTo_get (f : Nat → Byte) (n : Nat) (v : Vector Byte 16) (k : Nat) (hk : k < 16) :
    (loadUpTo f n v)[k] = if k < n then f k else v[k] := by
  induction n with
  | zero => rfl
  | succ n ih =>
    unfold loadUpTo
    rw [Vector.getElem_setIfInBounds]
    by_cases h : n = k
    · subst h; simp
    · rw [if_neg h, ih]
      congr 1; simp only [eq_iff_iff]; omega

@[simp] theorem State.reg_loadRegsTo (s : State) (x : Reg) (f : Nat → Byte) (r : Reg) :
    (s.loadRegsTo x f).reg r = if r ≤ x then f r.val else s.reg r := by
  unfold State.loadRegsTo State.reg
  show (loadUpTo f (x.val + 1) s.v)[r.val] = _
  rw [loadUpTo_get f _ _ _ r.isLt]
  congr 1
  simp only [eq_iff_iff, Fin.le_def]; omega

/-! ### The call stack -/

/-- What a pop finds right after a push (spec/10_state.md R24, R25). -/
theorem State.topOfStack_push (s : State) (a : Word) : (s.push a).topOfStack = a := by
  unfold State.push State.topOfStack
  simp

/-! ### Main memory -/

/-- Outside the stored addresses memory reads as before (spec/20_memory.md R62). -/
theorem State.memRead_memStore_other (h : Memory.wf s.config s.memory = true) (a : Nat) (bs : List Byte) {a' : Nat}
    (hout : ∀ k < bs.length, maskAddr a' ≠ maskAddr (a + k)) :
    (s.memStore a bs).memRead a' = s.memRead a' :=
  Memory.read_store_other h a bs hout

/-- Each stored byte is read back (R62, R66). -/
theorem State.memRead_memStore (h : Memory.wf s.config s.memory = true) (a : Nat) (bs : List Byte)
    (hlen : bs.length ≤ 4096) {k : Nat} (hk : k < bs.length) :
    (s.memStore a bs).memRead (a + k) = bs[k] :=
  Memory.read_store h a bs hlen hk

/-- Reading is masked: addresses 4096 apart are one byte (R61). -/
theorem State.memRead_mask (s : State) (a : Nat) : s.memRead (a % 4096) = s.memRead a := by
  unfold State.memRead Memory.read maskAddr
  rw [Nat.mod_mod]

theorem State.regsUpTo_length (s : State) (x : Reg) : (s.regsUpTo x).length = x.val + 1 := by
  unfold State.regsUpTo
  rw [List.length_take, Vector.length_toList]
  omega

theorem State.regsUpTo_get (s : State) (x : Reg) (k : Nat) (hk : k < (s.regsUpTo x).length) :
    (s.regsUpTo x)[k] = s.reg ⟨k, by rw [State.regsUpTo_length] at hk; omega⟩ := by
  have h : (s.regsUpTo x)[k] = s.v.toList[k]'(by
      rw [Vector.length_toList]; rw [State.regsUpTo_length] at hk; omega) := List.getElem_take
  rw [h, Vector.getElem_toList]
  rfl

/-! ### Timers and tone -/

/-- A timer goes down by one on a tick and stops at 0 (spec/60_exceptions.md R211). -/
theorem timerAfter_toNat (tick : Bool) (t : Byte) :
    (timerAfter tick t).toNat = if tick then t.toNat - 1 else t.toNat := by
  unfold timerAfter
  cases tick
  · simp
  · by_cases h : t = 0
    · subst h; rfl
    · rw [if_pos ⟨rfl, h⟩, if_pos rfl]
      bv_omega

theorem soundStops_iff (tick : Bool) (t : Byte) : soundStops tick t = true ↔ tick = true ∧ t = 1 := by
  unfold soundStops
  cases tick
  · simp
  · simp only [Bool.true_and, Bool.and_eq_true, bne_iff_ne, ne_eq, beq_iff_eq, true_and]
    constructor
    · rintro ⟨h, h1⟩; bv_omega
    · rintro rfl; decide

/-- The tone after the gate sounds exactly while the sound timer is not 0, if it did before (R28, R211). -/
theorem State.timerGate_tone_iff (h : s.tone = true ↔ s.st ≠ 0) :
    s.timerGate.tone = true ↔ s.timerGate.st ≠ 0 := by
  rw [State.timerGate_tone, State.timerGate_st]
  by_cases hs : soundStops s.input.tick s.st = true
  · obtain ⟨h1, h2⟩ := (soundStops_iff _ _).mp hs
    rw [if_pos hs, h1, h2]; decide
  · rw [if_neg hs, h]
    have hne : ¬(s.input.tick = true ∧ s.st = 1) := fun hc => hs ((soundStops_iff _ _).mpr hc)
    unfold timerAfter
    split
    · rename_i hc
      have : s.st ≠ 1 := fun h1 => hne ⟨hc.1, h1⟩
      constructor
      · intro h0; bv_omega
      · intro _; exact hc.2
    · rfl

/-- The same after an instruction writes the sound timer (R28, R163). -/
theorem toneAfter_iff {old new : Byte} {tone : Bool} (h : tone = true ↔ old ≠ 0) :
    toneAfter old new tone = true ↔ new ≠ 0 := by
  unfold toneAfter
  split_ifs with h1 h2
  · exact iff_of_true rfl h1.2
  · exact iff_of_false (by simp) fun hn => hn h2.2
  · rw [h]
    constructor
    · intro ho hn; exact h2 ⟨ho, hn⟩
    · intro hn ho; exact h1 ⟨ho, hn⟩

/-! ### The display plane -/

/-- A cell after a scroll (spec/45_display.md R174 to R176). -/
theorem State.cell_redraw (s : State) (f : Nat → Nat → Byte) {px py : Nat} (hx : px < s.width.cols)
    (hy : py < s.width.rows) : (s.redraw f).cell px py = f px py :=
  Plane.get_tabulate f hx hy

/-- A cell after `Clear` (R170). -/
theorem State.cell_clear (s : State) {px py : Nat} (hx : px < s.width.cols) (hy : py < s.width.rows) :
    s.clear.cell px py = s.bg :=
  Plane.get_fill s.bg hx hy

/-- A cell after `Resize` (R171). -/
theorem State.cell_resize (s : State) (w : Width) {px py : Nat} (hx : px < w.cols) (hy : py < w.rows) :
    (s.resize w).cell px py = s.bg :=
  Plane.get_fill s.bg hx hy

theorem Width.onPlane_iff {w : Width} {px py : Nat} : w.onPlane px py = true ↔ px < w.cols ∧ py < w.rows := by
  simp [Width.onPlane]

/-- `Plot` keeps the canonical form (R172, R76). -/
theorem plot_wf {pen : Pen} {p : Cells} (h : Plane.wf pen.width p = true) (px py : Nat) :
    Plane.wf pen.width (plot pen p px py).1 = true := by
  unfold plot
  split
  · rename_i hon
    exact Plane.set_wf h (Plane.index_lt (Width.onPlane_iff.mp hon).1 (Width.onPlane_iff.mp hon).2) _
  · exact h

/-- `Plot` at one pixel, seen at a pixel of the plane (R172). -/
theorem plot_get {pen : Pen} {p : Cells} (h : Plane.wf pen.width p = true) (px py : Nat) {qx qy : Nat}
    (hx : qx < pen.width.cols) (hy : qy < pen.width.rows) :
    Plane.get (plot pen p px py).1 (Plane.index pen.width qx qy) =
      if (qx, qy) = (px, py) then
        (plotCell pen.mode pen.fg pen.bg (Plane.get p (Plane.index pen.width qx qy))).1
      else Plane.get p (Plane.index pen.width qx qy) := by
  unfold plot
  by_cases hon : pen.width.onPlane px py = true
  · have hp := Width.onPlane_iff.mp hon
    rw [if_pos hon, Plane.get_set h]
    by_cases heq : (qx, qy) = (px, py)
    · obtain ⟨rfl, rfl⟩ := Prod.mk.inj heq
      simp
    · rw [if_neg heq, if_neg]
      intro hi
      obtain ⟨rfl, rfl⟩ := Plane.index_inj hx hp.1 hi
      exact heq rfl
  · rw [if_neg hon, if_neg]
    rintro heq
    obtain ⟨rfl, rfl⟩ := Prod.mk.inj heq
    exact hon (Width.onPlane_iff.mpr ⟨hx, hy⟩)

/-- The collision bit of `Plot` (R172). -/
theorem plot_collision (pen : Pen) (p : Cells) (px py : Nat) :
    (plot pen p px py).2 = true ↔ pen.width.onPlane px py = true ∧
      (plotCell pen.mode pen.fg pen.bg (Plane.get p (Plane.index pen.width px py))).2 = true := by
  unfold plot
  by_cases hon : pen.width.onPlane px py = true <;> simp [hon]

theorem plotAll_wf {pen : Pen} {p : Cells} (h : Plane.wf pen.width p = true) (ps : List (Nat × Nat)) :
    Plane.wf pen.width (plotAll pen ps p).1 = true := by
  induction ps generalizing p with
  | nil => exact h
  | cons q rest ih => exact ih (plot_wf h q.1 q.2)

/-- The plane after distinct pixels are plotted: each of them is plotted once, on the plane as it was; every other
cell is as it was (R180). -/
theorem plotAll_get {pen : Pen} {p : Cells} (h : Plane.wf pen.width p = true) {ps : List (Nat × Nat)} (hnd : ps.Nodup)
    {qx qy : Nat} (hx : qx < pen.width.cols) (hy : qy < pen.width.rows) :
    Plane.get (plotAll pen ps p).1 (Plane.index pen.width qx qy) =
      if (qx, qy) ∈ ps then
        (plotCell pen.mode pen.fg pen.bg (Plane.get p (Plane.index pen.width qx qy))).1
      else Plane.get p (Plane.index pen.width qx qy) := by
  induction ps generalizing p with
  | nil => rfl
  | cons q rest ih =>
    obtain ⟨hq, hrest⟩ := List.nodup_cons.mp hnd
    show Plane.get (plotAll pen rest (plot pen p q.1 q.2).1).1 _ = _
    rw [ih (plot_wf h q.1 q.2) hrest, plot_get h q.1 q.2 hx hy]
    by_cases heq : (qx, qy) = q
    · subst heq
      rw [if_neg hq, if_pos rfl, if_pos List.mem_cons_self]
    · rw [if_neg (show ¬((qx, qy) = (q.1, q.2)) from heq)]
      simp [List.mem_cons, heq]

/-- Distinct pixels collide when one of them, on the plane, collides with the plane as it was (R180). -/
theorem plotAll_collision {pen : Pen} {p : Cells} (h : Plane.wf pen.width p = true) {ps : List (Nat × Nat)} (hnd : ps.Nodup) :
    (plotAll pen ps p).2 = true ↔ ∃ q ∈ ps, pen.width.onPlane q.1 q.2 = true ∧
      (plotCell pen.mode pen.fg pen.bg (Plane.get p (Plane.index pen.width q.1 q.2))).2 = true := by
  induction ps generalizing p with
  | nil => simp [plotAll]
  | cons q rest ih =>
    obtain ⟨hq, hrest⟩ := List.nodup_cons.mp hnd
    show ((plot pen p q.1 q.2).2 || (plotAll pen rest (plot pen p q.1 q.2).1).2) = true ↔ _
    rw [Bool.or_eq_true, ih (plot_wf h q.1 q.2) hrest, plot_collision]
    simp only [List.exists_mem_cons_iff]
    refine or_congr Iff.rfl (exists_congr fun r => and_congr_right fun hr => and_congr_right fun hon => ?_)
    obtain ⟨hrx, hry⟩ := Width.onPlane_iff.mp hon
    rw [plot_get h q.1 q.2 hrx hry, if_neg]
    intro heq
    have hqr : r = q := heq
    exact hq (hqr ▸ hr)

/-- The lit pixels of a sprite (R180). -/
theorem State.mem_spritePixels {shape : SpriteShape} {x0 y0 : Nat} {q : Nat × Nat} :
    q ∈ s.spritePixels shape x0 y0 ↔
      ∃ r < shape.rows, ∃ c < shape.cols, s.spriteBit shape r c = true ∧ q = (x0 + c, y0 + r) := by
  unfold State.spritePixels
  simp only [List.mem_flatMap, List.mem_range, List.mem_filterMap, Option.ite_none_right_eq_some,
    Option.some.injEq]
  constructor
  · rintro ⟨r, hr, c, hc, hb, rfl⟩; exact ⟨r, hr, c, hc, hb, rfl⟩
  · rintro ⟨r, hr, c, hc, hb, rfl⟩; exact ⟨r, hr, c, hc, hb, rfl⟩

/-- The pixels of one sprite are pairwise distinct (R180, corner case f). -/
theorem State.spritePixels_nodup (shape : SpriteShape) (x0 y0 : Nat) : (s.spritePixels shape x0 y0).Nodup := by
  unfold State.spritePixels
  rw [List.nodup_flatMap]
  constructor
  · intro r _
    refine List.Nodup.filterMap ?_ List.nodup_range
    intro c c' q hc hc'
    simp only [Option.mem_def, Option.ite_none_right_eq_some, Option.some.injEq] at hc hc'
    have := hc.2.trans hc'.2.symm
    simp only [Prod.mk.injEq, Nat.add_left_cancel_iff] at this
    exact this.1
  · refine List.Pairwise.imp ?_ (List.pairwise_lt_range)
    intro r r' hlt
    simp only [Function.onFun, List.disjoint_left]
    intro q hq hq'
    simp only [List.mem_filterMap, List.mem_range, Option.ite_none_right_eq_some, Option.some.injEq] at hq hq'
    obtain ⟨c, _, _, rfl⟩ := hq
    obtain ⟨c', _, _, heq⟩ := hq'
    simp only [Prod.mk.injEq, Nat.add_left_cancel_iff] at heq
    omega

/-! ### Around the instruction -/

theorem State.gateIfRunning_running (h : s.status = .running) : s.gateIfRunning = s.timerGate := by
  unfold State.gateIfRunning; rw [h]

theorem State.gateIfRunning_halted (h : s.status ≠ .running) : s.gateIfRunning = s := by
  unfold State.gateIfRunning
  split
  · exact absurd ‹_› h
  all_goals rfl

/-- What ends a step of a core that still runs (spec/40_control_flow.md R100). -/
theorem State.endStep_running (h : s.status = .running) : s.endStep = s.timerGate.nextInputs := by
  unfold State.endStep; rw [State.gateIfRunning_running h]

/-- What ends a step that raised a condition, or met a halted core (spec/60_exceptions.md R204, R205). -/
theorem State.endStep_halted (h : s.status ≠ .running) : s.endStep = s.nextInputs := by
  unfold State.endStep; rw [State.gateIfRunning_halted h]

/-- What ends a step writes the timers, the tone, the events and the inputs, and nothing else. -/
theorem State.endStep_frame (s : State) :
    s.endStep = { s with dt := s.endStep.dt, st := s.endStep.st, tone := s.endStep.tone, events := s.endStep.events,
                         inputs := s.inputs.tail, stepCount := s.stepCount + 1 } := by
  by_cases h : s.status = .running
  · rw [State.endStep_running h]; rfl
  · rw [State.endStep_halted h]; rfl

/-- The opcode placed for the next fetch is the one fetched (log 11). -/
theorem State.fetch_placeOpcode (h : Memory.wf s.config s.memory = true) (op : Word) :
    (s.placeOpcode op).fetch = op := by
  have hb : ∀ k (hk : k < [opcodeHigh op, opcodeLow op].length),
      (s.placeOpcode op).memRead (s.pc.toNat + k) = [opcodeHigh op, opcodeLow op][k] :=
    fun k hk => Memory.read_store h s.pc.toNat _ (by simp) hk
  have h0 := hb 0 (by simp)
  have h1 := hb 1 (by simp)
  unfold State.fetch
  rw [State.placeOpcode_pc]
  rw [Nat.add_zero] at h0
  rw [h0, h1]
  exact bytesToOpcode_high_low op

/-- The outcomes of a step (R100, R205): a running core runs what it decodes, a halted one does nothing. -/
theorem step_cases {o : Outcome State Fault Refusal} (h : step s = o) :
    (s.status = .running ∧ ∃ i, decodeWord s.fetch = .ok i ∧
      ((∃ t, exec i s.beginStep = .next t ∧ o = .next t.endStep) ∨
       (∃ r, exec i s.beginStep = .refused r ∧ o = .refused r))) ∨
    (s.status = .running ∧ (∃ e, decodeWord s.fetch = .error e) ∧
      o = .next (s.beginStep.raise (.invalid s.fetch)).endStep) ∨
    (s.status ≠ .running ∧ o = .next s.beginStep.nextInputs) := by
  subst h
  unfold step runDecoded
  rcases hs : s.status with _ | _ | _ | op
  · cases hd : decodeWord s.fetch with
    | ok i =>
      refine .inl ⟨rfl, i, rfl, ?_⟩
      cases he : exec i s.beginStep with
      | next t => exact .inl ⟨t, rfl, by simp [he]⟩
      | fault r => exact r.rec
      | refused r => exact .inr ⟨r, rfl, by simp [he]⟩
    | error e => exact .inr (.inl ⟨rfl, ⟨e, rfl⟩, rfl⟩)
  all_goals
    exact .inr (.inr ⟨by simp, by rw [State.endStep_halted (by simp [hs])]⟩)

end Sys2Proof.Machine
end

