-- ==== Sys2Proof/Safety.lean ====
section
/-! DEFINITION. What counts as a safe run (spec/60_exceptions.md R203, spec/70_reset_and_hazards.md R239), and the
invariant that every state of a run has. -/

namespace Sys2Proof.Machine

/-- The run has ended well: `EXITED` (R203, R239). -/
abbrev State.goodEnd (s : State) : Prop := s.status = .exited

/-- The run has ended in a fault: `UNSUPPORTED` or `INVALID` (R203). -/
def State.faulted (s : State) : Bool :=
  match s.status with
  | .running => false
  | .exited => false
  | .unsupported => true
  | .invalid _ => true

/-- A run is safe as long as it has met no fault. -/
abbrev State.safe (s : State) : Prop := s.faulted = false

/-- The invariant of every run: memory and plane keep their canonical form, and the tone sounds exactly while the
sound timer is not 0 (spec/10_state.md R28). -/
structure State.Inv (s : State) : Prop where
  memory : Memory.wf s.config s.memory = true
  plane  : Plane.wf s.width s.plane = true
  tone   : s.tone = true ↔ s.st ≠ 0

/-- The reset colours, and every live cell 0 or 1: the condition under which the two drawing modes agree
(spec/45_display.md R181). -/
structure State.Monochrome (s : State) : Prop where
  fg    : s.fg = 1
  bg    : s.bg = 0
  cells : ∀ px py, px < s.width.cols → py < s.width.rows → s.cell px py = 0 ∨ s.cell px py = 1

end Sys2Proof.Machine
end

