-- ==== Sys2Proof/Certificates/Slice0/Obligations.lean ====
section
/-! DEFINITION. The statements for the provers, taken from the spec's rules. First the words they share: what an
instruction leaves unchanged, and in which terms the picture of a sprite is said. -/

namespace Sys2Proof.Machine

open Host (Outcome)

/-! ### Frames -/

/-- Every general register outside `D` reads as before. -/
def KeepsRegs (D : List Reg) (s t : State) : Prop := ∀ r, r ∉ D → t.reg r = s.reg r

/-- The call stack and its pointer are as before. -/
def KeepsStack (s t : State) : Prop := t.sp = s.sp ∧ t.stack = s.stack

/-- The timers and the tone are as before. -/
def KeepsTimers (s t : State) : Prop := t.dt = s.dt ∧ t.st = s.st ∧ t.tone = s.tone

/-- Every byte of memory reads as before. -/
def KeepsMemory (s t : State) : Prop := ∀ a, t.memRead a = s.memRead a

/-- Every byte outside the `n` bytes from address `a0` on reads as before. -/
def KeepsMemoryOutside (a0 n : Nat) (s t : State) : Prop :=
  ∀ a, (∀ k < n, maskAddr a ≠ maskAddr (a0 + k)) → t.memRead a = s.memRead a

/-- Every cell, the width and the dirty flag are as before. -/
def KeepsPicture (s t : State) : Prop :=
  t.width = s.width ∧ t.dirty = s.dirty ∧ ∀ px py, t.cell px py = s.cell px py

/-- The colours are as before. -/
def KeepsColours (s t : State) : Prop := t.fg = s.fg ∧ t.bg = s.bg

/-- No condition is raised and no event emitted. -/
def KeepsRunning (s t : State) : Prop := t.status = s.status ∧ t.events = s.events

/-- What is not the machine's to change: parameters, image, and the inputs lined up. -/
def KeepsSession (s t : State) : Prop := t.config = s.config ∧ t.inputs = s.inputs ∧ t.stepCount = s.stepCount

/-- Everything but the registers in `D` and `PC` is as before. -/
def ChangesOnlyRegs (D : List Reg) (s t : State) : Prop :=
  KeepsRegs D s t ∧ t.i = s.i ∧ KeepsStack s t ∧ KeepsTimers s t ∧ KeepsMemory s t ∧ KeepsPicture s t ∧
    KeepsColours s t ∧ KeepsRunning s t ∧ KeepsSession s t

/-- Everything but `I` and `PC` is as before. -/
def ChangesOnlyIndex (s t : State) : Prop :=
  KeepsRegs [] s t ∧ KeepsStack s t ∧ KeepsTimers s t ∧ KeepsMemory s t ∧ KeepsPicture s t ∧ KeepsColours s t ∧
    KeepsRunning s t ∧ KeepsSession s t

/-- Everything but `n` bytes of memory from address `a0` on, and `PC`, is as before. -/
def ChangesOnlyMemory (a0 n : Nat) (s t : State) : Prop :=
  KeepsMemoryOutside a0 n s t ∧ KeepsRegs [] s t ∧ t.i = s.i ∧ KeepsStack s t ∧ KeepsTimers s t ∧
    KeepsPicture s t ∧ KeepsColours s t ∧ KeepsRunning s t ∧ KeepsSession s t

/-- Everything but the picture (cells, width, dirty flag), `PC`, the events, and the registers in `D` is as before. -/
def ChangesOnlyPicture (D : List Reg) (s t : State) : Prop :=
  KeepsRegs D s t ∧ t.i = s.i ∧ KeepsStack s t ∧ KeepsTimers s t ∧ KeepsMemory s t ∧ KeepsColours s t ∧
    t.status = s.status ∧ KeepsSession s t

/-! ### Sprites, in the words of spec/45_display.md R180 -/

/-- `Dxyn` draws a 16x16 sprite. -/
def BigSprite (s : State) (n : Nibble) : Prop := n = 0 ∧ s.width = .w128

/-- The sprite of `Dxyn` has a lit bit for pixel `(px, py)`: row `r`, column `c` of a 16x16 sprite of two bytes a row,
or of `n` rows of one byte; bit 7 of a byte is its leftmost pixel. -/
def SpriteLights (s : State) (x y : Reg) (n : Nibble) (px py : Nat) : Prop :=
  ∃ r c, px = (s.reg x).toNat + c ∧ py = (s.reg y).toNat + r ∧
    ((BigSprite s n ∧ r < 16 ∧ c < 8 ∧ (s.memRead (s.i.toNat + 2 * r)).getLsbD (7 - c) = true) ∨
     (BigSprite s n ∧ r < 16 ∧ 8 ≤ c ∧ c < 16 ∧ (s.memRead (s.i.toNat + 2 * r + 1)).getLsbD (15 - c) = true) ∨
     (¬BigSprite s n ∧ r < n.toNat ∧ c < 8 ∧ (s.memRead (s.i.toNat + r)).getLsbD (7 - c) = true))

/-- A lit source pixel meets a lit cell: bit 0 set in `XOR` mode, the foreground byte in `OVERWRITE` mode (R172). -/
def CellIsLit (s : State) (px py : Nat) : Prop :=
  match s.config.drawMode with
  | .xor => (s.cell px py).getLsbD 0 = true
  | .overwrite => s.cell px py = s.fg

/-- The pixel lies on the plane. -/
def OnPlane (s : State) (px py : Nat) : Prop := px < s.width.cols ∧ py < s.width.rows

/-- `s` under another drawing mode. -/
def State.withDrawMode (m : DrawMode) (s : State) : State := { s with config := { s.config with drawMode := m } }

/-! ### Reset, in the words of spec/10_state.md R41 -/

/-- The registers, timers, stack, display and status are as R41 lists them. -/
def HoldsResetValues (t : State) : Prop :=
  (∀ r, t.reg r = 0) ∧ t.i = 0 ∧ t.pc = 0x200#16 ∧ t.sp = 0 ∧ (∀ k : Fin 16, t.stack[k] = 0) ∧ t.dt = 0 ∧ t.st = 0 ∧
    t.tone = false ∧ t.width = .w64 ∧ t.fg = 1 ∧ t.bg = 0 ∧ (∀ px py, px < 64 → py < 32 → t.cell px py = 0) ∧
    t.dirty = true ∧ t.status = .running

/-- Memory holds the font, the image (its first 3584 bytes) and zeros, as R41 lists them. -/
def HoldsResetMemory (t : State) : Prop :=
  (∀ a : Fin 80, t.memRead a.val = t.config.font[a]) ∧ (∀ a, 80 ≤ a → a < 512 → t.memRead a = 0) ∧
    (∀ j (h : j < t.config.image.length), j < 3584 → t.memRead (512 + j) = t.config.image[j]) ∧
    (∀ a, 512 + t.config.image.length ≤ a → a < 4096 → t.memRead a = 0)

end Sys2Proof.Machine

open Sys2Proof Sys2Proof.Machine

/-! ## Encoding -/

/-- Decoding the bytes of an instruction gives that instruction back, and the bytes after it, with every operand at
every value its field admits (spec/30_encoding.md R80 to R84). -/
def Obligations.DecodeOfEncodeIsTheInstruction : Prop :=
  ∀ (i : Instr) (rest : List Byte), decode (encode i ++ rest) = .ok (i, rest)

/-- An opcode that decodes is the encoding of what it decodes to: each word has one meaning, and no bit of it is
dropped (spec/30_encoding.md R81 to R84). -/
def Obligations.EncodeOfDecodeIsTheOpcode : Prop :=
  ∀ (op : Word) (i : Instr), decodeWord op = .ok i → encodeWord i = op

/-- The decoder accepts exactly the opcodes that match a row of the opcode table; any other is refused with its 16 bits
(spec/30_encoding.md R86, R91; the exact list rests on the spec's decisions D16 to D18, log 16). -/
def Obligations.DecoderAcceptsExactlyTheOpcodeTable : Prop :=
  ∀ op : Word, (opcodeWellFormed op = true → ∃ i, decodeWord op = .ok i) ∧
    (opcodeWellFormed op = false → decodeWord op = .error (.invalid op))

/-- No opcode matches two rows of the opcode table (derived by spec/30_encoding.md R91 from R84). -/
def Obligations.OpcodeTableRowsAreDisjoint : Prop :=
  ∀ (op : Word) (r r' : OpcodeRow), r ∈ opcodeTable → r' ∈ opcodeTable → r.accepts op = true → r'.accepts op = true →
    r = r'

/-- Sample opcodes, written out from the patterns of spec/30_encoding.md R84, decode to what they stand for. -/
def Obligations.SampleOpcodesDecode : Prop :=
  decodeWord 0x00C4#16 = .ok (.scd 4) ∧ decodeWord 0x00EE#16 = .ok .ret ∧ decodeWord 0x220A#16 = .ok (.call 0x20A) ∧
    decodeWord 0x3A42#16 = .ok (.seImm 10 0x42) ∧ decodeWord 0x812E#16 = .ok (.shl 1 2) ∧
    decodeWord 0xD125#16 = .ok (.drw 1 2 5) ∧ decodeWord 0xE5A1#16 = .ok (.sknp 5) ∧
    decodeWord 0xF755#16 = .ok (.storeRegs 7) ∧ decodeWord 0xF375#16 = .ok (.unsupportedFx75 3)

/-! ## The step -/

/-- A running core whose fetched opcode decodes to `i` runs `i`: its step is `exec i` on the state with an empty list
of events, and what then ends the step: the timer gate if the core still runs (spec/40_control_flow.md R100). That the
event list starts empty, and that the step moves on to the next inputs and counts itself, are the model's own choices
(DESIGN CHOICE, log 8, log 1). -/
def Obligations.StepRunsTheDecodedInstruction : Prop :=
  ∀ (s t : State) (i : Instr), s.status = .running → decodeWord s.fetch = .ok i →
    exec i { s with events := [] } = .next t →
    (t.status = .running →
      step s = .next { t.timerGate with inputs := t.inputs.tail, stepCount := t.stepCount + 1 }) ∧
    (t.status ≠ .running → step s = .next { t with inputs := t.inputs.tail, stepCount := t.stepCount + 1 })

/-- A fetch reads the byte at `PC` as the high byte and the one after it as the low byte, each address masked to 12
bits by itself (spec/20_memory.md R63, spec/30_encoding.md R80). -/
def Obligations.FetchIsBigEndianAndMasked : Prop :=
  ∀ s : State, s.fetch.toNat = 256 * (s.memRead (s.pc.toNat % 4096)).toNat +
    (s.memRead ((s.pc.toNat + 1) % 4096)).toNat

/-- No instruction and no step ends in a fault or a refusal: each answers a next state, whatever the state (derived
from spec/20_memory.md R62 and spec/60_exceptions.md R204: no access can fail, and a condition leaves a state). -/
def Obligations.EveryInstructionAndStepCompletes : Prop :=
  (∀ (i : Instr) (s : State), ∃ t, exec i s = .next t) ∧ ∀ s : State, ∃ t, step s = .next t

/-- A halted core stays as it is and returns the same condition again (spec/60_exceptions.md R205, by the spec's
decision D19). The step emits nothing and uses up its inputs (the model's own fields, log 8, log 9). -/
def Obligations.HaltedCoreStaysHalted : Prop :=
  ∀ s : State, s.status ≠ .running →
    ∃ t, step s = .next t ∧ t = { s with events := [], inputs := s.inputs.tail, stepCount := s.stepCount + 1 } ∧
      t.status.result = s.status.result

/-- A step that raises a condition changes nothing but the status: no register, byte, cell or timer, and not `PC`; it
emits nothing (spec/60_exceptions.md R204, by the spec's decision D19, log 17). The empty event list and the inputs used
up are the model's own fields (DESIGN CHOICE, log 8, log 1). -/
def Obligations.RaisingStepChangesOnlyStatus : Prop :=
  ∀ s t : State, s.status = .running → step s = .next t → t.status ≠ .running →
    t = { s with status := t.status, events := [], inputs := s.inputs.tail, stepCount := s.stepCount + 1 }

/-- `Invalid(op)` is raised for every opcode that matches no row of the table, and by nothing else; it carries the 16
bits as fetched, and `PC` stays (spec/60_exceptions.md R201; which opcodes these are rests on the spec's decisions D16
to D18, log 16, and that `PC` stays on its decision D19, log 17). -/
def Obligations.InvalidRaisedExactlyForUnlistedOpcodes : Prop :=
  ∀ s : State, s.status = .running →
    ∃ t, step s = .next t ∧ (opcodeWellFormed s.fetch = false → t.status = .invalid s.fetch ∧ t.pc = s.pc) ∧
      ∀ op, t.status = .invalid op → op = s.fetch ∧ opcodeWellFormed s.fetch = false

/-- `Unsupported` is raised for `Fx30`, `Fx75` and `Fx85`, whatever `x`, and by nothing else; it is not `Invalid`
(spec/60_exceptions.md R202; for `x` other than 0 by the spec's decision D17, log 16). -/
def Obligations.UnsupportedRaisedExactlyForThreeEncodings : Prop :=
  ∀ s : State, s.status = .running →
    ∃ t, step s = .next t ∧ (t.status = .unsupported ↔
      s.fetch &&& 0xF0FF#16 = 0xF030#16 ∨ s.fetch &&& 0xF0FF#16 = 0xF075#16 ∨ s.fetch &&& 0xF0FF#16 = 0xF085#16)

/-- `Exit` is raised by `00FD` and by nothing else; it is the good end of a run, and the two other conditions are its
faults (spec/60_exceptions.md R203; the split into good end and faults is derived there by the spec). -/
def Obligations.ExitIsTheOnlyGoodEnd : Prop :=
  ∀ s : State, s.status = .running →
    ∃ t, step s = .next t ∧ (t.goodEnd ↔ s.fetch = 0x00FD#16) ∧
      (t.faulted = true ↔ t.status ≠ .running ∧ s.fetch ≠ 0x00FD#16)

/-- The timer gate: on a tick both timers go down by one, with a floor at 0, and where the sound timer comes to exactly
0 the tone stops and `EndTone` is emitted; otherwise nothing changes (spec/60_exceptions.md R211). It ends every step
whose instruction leaves the core running. -/
def Obligations.TimerGateEndsEveryCompletedStep : Prop :=
  ∀ (s u : State) (i : Instr), s.status = .running → decodeWord s.fetch = .ok i →
    exec i { s with events := [] } = .next u → u.status = .running →
    ∃ t, step s = .next t ∧
      (u.input.tick = false → t.dt = u.dt ∧ t.st = u.st ∧ t.tone = u.tone ∧ t.events = u.events) ∧
      (u.input.tick = true → t.dt.toNat = u.dt.toNat - 1 ∧ t.st.toNat = u.st.toNat - 1 ∧
        (u.st = 1 → t.tone = false ∧ t.events = u.events ++ [.endTone]) ∧
        (u.st ≠ 1 → t.tone = u.tone ∧ t.events = u.events)) ∧
      KeepsRegs [] u t ∧ t.i = u.i ∧ t.pc = u.pc ∧ KeepsStack u t ∧ KeepsMemory u t ∧ KeepsPicture u t ∧
      KeepsColours u t ∧ t.status = u.status ∧ t.config = u.config

/-! ## Rules about the whole machine -/

/-- The invariant (canonical memory and plane; the tone sounds exactly while `ST` is not 0, derived by
spec/10_state.md R28) holds after every step from every state that has it. -/
def Obligations.StepKeepsTheInvariant : Prop := ∀ s t : State, s.Inv → step s = .next t → t.Inv

/-- The invariant holds right after reset. -/
def Obligations.ResetMeetsTheInvariant : Prop := State.reset.Inv

/-- Each of the host's actions, with any inputs and any image, keeps the invariant (spec/00_scope.md R7, R9). -/
def Obligations.HostActionsKeepTheInvariant : Prop :=
  ∀ (a : HostAction) (s t : State), s.Inv → act a s = .next t → t.Inv

/-- The next `PC` of every instruction is the one its rule gives, modulo 65536, each skip by its own condition; each is
one of those that spec/40_control_flow.md R100 lists, and a condition leaves `PC`. Parts rest on marks of the spec: the
width of `PC`, the stack, the raising step, the soft reset, `Bnnn`, the key index and the key level on its decisions
D4, D6, D19, D21, D25, D28, D34 (log 13, 12, 17, 18, 23, 20, 21); the skip conditions and `Bnnn` on general knowledge
(log 19). -/
def Obligations.EveryNextPcIsListed : Prop :=
  ∀ (i : Instr) (s t : State), exec i s = .next t →
    match i with
    | .ret => t.pc = s.stack[(s.sp - 1).toNat]
    | .jp nnn => t.pc.toNat = nnn.toNat
    | .call nnn => t.pc.toNat = nnn.toNat
    | .jpV0 nnn => t.pc.toNat = nnn.toNat + (s.reg 0).toNat
    | .sys101 => t.pc = 0x200#16
    | .seImm x kk => t.pc = if s.reg x = kk then s.pc + 4 else s.pc + 2
    | .sneImm x kk => t.pc = if s.reg x = kk then s.pc + 2 else s.pc + 4
    | .seReg x y => t.pc = if s.reg x = s.reg y then s.pc + 4 else s.pc + 2
    | .sneReg x y => t.pc = if s.reg x = s.reg y then s.pc + 2 else s.pc + 4
    | .skp x => t.pc = if s.input.keys.getLsbD ((s.reg x).toNat % 16) = true then s.pc + 4 else s.pc + 2
    | .sknp x => t.pc = if s.input.keys.getLsbD ((s.reg x).toNat % 16) = true then s.pc + 2 else s.pc + 4
    | .ldVxK _ => t.pc = if s.input.keys = 0 then s.pc else s.pc + 2
    | .exit => t.pc = s.pc
    | .unsupportedFx30 _ => t.pc = s.pc
    | .unsupportedFx75 _ => t.pc = s.pc
    | .unsupportedFx85 _ => t.pc = s.pc
    | _ => t.pc = s.pc + 2

/-- Over a whole step, the delay timer is written by `Fx15` and the soft reset only; otherwise it goes down by at most
one, on a tick, with a floor at 0 (spec/10_state.md R26, spec/60_exceptions.md R211; that a condition skips the gate is
the spec's decision D19, log 17). -/
def Obligations.DelayTimerOnlyCountsDown : Prop :=
  ∀ s t : State, step s = .next t → s.fetch &&& 0xF0FF#16 ≠ 0xF015#16 → s.fetch ≠ 0x0101#16 →
    t.dt.toNat = (if t.status = .running ∧ s.input.tick = true then s.dt.toNat - 1 else s.dt.toNat)

/-- Over a whole step, the sound timer is written by `Fx18` and the soft reset only; otherwise it goes down by at most
one, and the tone stops exactly when it comes to 0 (spec/10_state.md R27, R28; that a condition skips the gate is the
spec's decision D19, log 17). -/
def Obligations.SoundTimerOnlyCountsDown : Prop :=
  ∀ s t : State, step s = .next t → s.fetch &&& 0xF0FF#16 ≠ 0xF018#16 → s.fetch ≠ 0x0101#16 →
    t.st.toNat = (if t.status = .running ∧ s.input.tick = true then s.st.toNat - 1 else s.st.toNat) ∧
    t.tone = (if s.st ≠ 0 ∧ t.st = 0 then false else s.tone)

/-- Only `CALL`, `RET` and the soft reset change `SP`, and only `CALL` and the soft reset a slot of the call stack; it
is no part of memory (spec/10_state.md R24, R25). -/
def Obligations.OnlyCallReturnAndResetMoveTheStack : Prop :=
  ∀ (i : Instr) (s t : State), exec i s = .next t → i ≠ .sys101 → (∀ nnn, i ≠ .call nnn) →
    t.stack = s.stack ∧ (i ≠ .ret → t.sp = s.sp)

/-- Only `Annn`, `Fx1E`, `Fx29` and the soft reset change `I`; no load or store does (spec/10_state.md R22; for the
loads and stores the spec's decision D26). -/
def Obligations.OnlyIndexInstructionsChangeI : Prop :=
  ∀ (i : Instr) (s t : State), exec i s = .next t → i ≠ .sys101 → (∀ nnn, i ≠ .ldI nnn) → (∀ x, i ≠ .addI x) →
    (∀ x, i ≠ .ldF x) → t.i = s.i

/-- Only `Fx33`, `Fx55` and the soft reset change memory (spec/20_memory.md R60). -/
def Obligations.OnlyStoresAndResetChangeMemory : Prop :=
  ∀ (i : Instr) (s t : State), exec i s = .next t → i ≠ .sys101 → (∀ x, i ≠ .ldB x) → (∀ x, i ≠ .storeRegs x) →
    KeepsMemory s t

/-- Only the display instructions and the soft reset change the plane, `width` and `dirty`; no instruction clears
`dirty`; only `SYS 0x102` and the soft reset change the colours (spec/10_state.md R30 to R33). -/
def Obligations.OnlyDisplayInstructionsChangeThePicture : Prop :=
  ∀ (i : Instr) (s t : State), exec i s = .next t →
    (i ≠ .sys101 → i ≠ .cls → i ≠ .scr → i ≠ .scl → i ≠ .low → i ≠ .high → (∀ n, i ≠ .scd n) →
      (∀ x y n, i ≠ .drw x y n) → KeepsPicture s t) ∧
    (i ≠ .sys101 → i ≠ .low → i ≠ .high → t.width = s.width) ∧
    (i ≠ .sys101 → i ≠ .sys102 → KeepsColours s t) ∧
    (s.dirty = true → t.dirty = true)

/-- `VF` is written as a flag by `8xy4`, `8xy5`, `8xy6`, `8xy7`, `8xyE` and `Dxyn`, always with 0 or 1; every other
instruction leaves it, unless it is the instruction's destination (spec/10_state.md R21, R42; for `8xy1` to `8xy3` the
spec's decision D24). -/
def Obligations.FlagIsWrittenByItsSixInstructionsOnly : Prop :=
  ∀ (i : Instr) (s t : State), exec i s = .next t →
    match i with
    | .addReg _ _ => t.reg 15 = 0 ∨ t.reg 15 = 1
    | .sub _ _ => t.reg 15 = 0 ∨ t.reg 15 = 1
    | .shr _ _ => t.reg 15 = 0 ∨ t.reg 15 = 1
    | .subn _ _ => t.reg 15 = 0 ∨ t.reg 15 = 1
    | .shl _ _ => t.reg 15 = 0 ∨ t.reg 15 = 1
    | .drw _ _ _ => t.reg 15 = 0 ∨ t.reg 15 = 1
    | .ldImm x _ => x ≠ 15 → t.reg 15 = s.reg 15
    | .addImm x _ => x ≠ 15 → t.reg 15 = s.reg 15
    | .ldReg x _ => x ≠ 15 → t.reg 15 = s.reg 15
    | .or x _ => x ≠ 15 → t.reg 15 = s.reg 15
    | .and x _ => x ≠ 15 → t.reg 15 = s.reg 15
    | .xor x _ => x ≠ 15 → t.reg 15 = s.reg 15
    | .rnd x _ => x ≠ 15 → t.reg 15 = s.reg 15
    | .ldVxDt x => x ≠ 15 → t.reg 15 = s.reg 15
    | .ldVxK x => x ≠ 15 → t.reg 15 = s.reg 15
    | .loadRegs x => x ≠ 15 → t.reg 15 = s.reg 15
    | .sys101 => t.reg 15 = 0
    | _ => t.reg 15 = s.reg 15

/-- Nothing in the core depends on whether `Refresh` ran: a step from the refreshed state differs from the step without
it in the dirty flag at most, and never sets it where the other does not (spec/60_exceptions.md R214). -/
def Obligations.RefreshIsInvisibleToTheCore : Prop :=
  ∀ s : State, ∃ t t', step s = .next t ∧ step s.refresh = .next t' ∧ t' = { t with dirty := t'.dirty } ∧
    (t'.dirty = true → t.dirty = true)

/-- Under the reset colours and with every live cell 0 or 1, every step is the same in both drawing modes, that of
`SYS 0x102` too, which reads no mode (derived by spec/45_display.md R181). -/
def Obligations.DrawModesAgreeUnderResetColours : Prop :=
  ∀ s : State, Plane.wf s.width s.plane = true → s.Monochrome →
    ∃ t : State, step (s.withDrawMode .overwrite) = .next (t.withDrawMode .overwrite) ∧
      step (s.withDrawMode .xor) = .next (t.withDrawMode .xor)

/-- That condition lasts from reset until the first `SYS 0x102` (derived by spec/45_display.md R181; the reset colours
are the spec's decision D7, log 4). -/
def Obligations.ResetColoursLastUntilSys102 : Prop :=
  State.reset.Monochrome ∧
  ∀ s t : State, s.Inv → s.Monochrome → s.fetch ≠ 0x0102#16 → step s = .next t → t.Monochrome

/-! ## Load, arithmetic, logic, random -/

/-- `6xkk`, `7xkk` and `8xy0`: the value loaded, the sum modulo 256 with no carry kept, the copy; nothing else but `PC`
changes (spec/42_alu.md R130 to R132, which the spec marks as general knowledge, log 19). -/
def Obligations.LoadCopyAndAddImmediateResults : Prop :=
  (∀ (x : Reg) (kk : Byte) (s : State), ∃ t, exec (.ldImm x kk) s = .next t ∧ t.reg x = kk ∧ t.pc = s.pc + 2 ∧
    ChangesOnlyRegs [x] s t) ∧
  (∀ (x : Reg) (kk : Byte) (s : State), ∃ t, exec (.addImm x kk) s = .next t ∧
    (t.reg x).toNat = ((s.reg x).toNat + kk.toNat) % 256 ∧ t.pc = s.pc + 2 ∧ ChangesOnlyRegs [x] s t) ∧
  (∀ (x y : Reg) (s : State), ∃ t, exec (.ldReg x y) s = .next t ∧ t.reg x = s.reg y ∧ t.pc = s.pc + 2 ∧
    ChangesOnlyRegs [x] s t)

/-- `8xy1`, `8xy2`, `8xy3`: bit by bit or, and, exclusive or into `V[x]`; nothing else but `PC` changes
(spec/42_alu.md R133 to R135, which the spec marks as general knowledge, log 19; that `VF` is not written is its
decision D24, log 23). -/
def Obligations.LogicResults : Prop :=
  ∀ (x y : Reg) (s : State),
    (∃ t, exec (.or x y) s = .next t ∧
      (∀ k < 8, (t.reg x).getLsbD k = ((s.reg x).getLsbD k || (s.reg y).getLsbD k)) ∧ t.pc = s.pc + 2 ∧
      ChangesOnlyRegs [x] s t) ∧
    (∃ t, exec (.and x y) s = .next t ∧
      (∀ k < 8, (t.reg x).getLsbD k = ((s.reg x).getLsbD k && (s.reg y).getLsbD k)) ∧ t.pc = s.pc + 2 ∧
      ChangesOnlyRegs [x] s t) ∧
    (∃ t, exec (.xor x y) s = .next t ∧
      (∀ k < 8, (t.reg x).getLsbD k = ((s.reg x).getLsbD k ^^ (s.reg y).getLsbD k)) ∧ t.pc = s.pc + 2 ∧
      ChangesOnlyRegs [x] s t)

/-- `8xy4`: `V[x]` is the sum modulo 256 of the old registers, `VF` is 1 iff the true sum is at least 256, written
last, so that with `x` = 15 the sum is lost; nothing else but `PC` changes. Its opcode is `0x8004` with `x` and `y` in
their fields (spec/42_alu.md R136). -/
def Obligations.AddWritesSumThenCarry : Prop :=
  ∀ (x y : Reg) (s : State), decodeWord (BitVec.ofNat 16 (0x8004 + 256 * x.val + 16 * y.val)) = .ok (.addReg x y) ∧
    ∃ t, exec (.addReg x y) s = .next t ∧
    (x ≠ 15 → (t.reg x).toNat = ((s.reg x).toNat + (s.reg y).toNat) % 256) ∧
    t.reg 15 = (if 256 ≤ (s.reg x).toNat + (s.reg y).toNat then 1 else 0) ∧ t.pc = s.pc + 2 ∧
    ChangesOnlyRegs [x, 15] s t

/-- `8xy5`: `V[x]` is the difference modulo 256 of the old registers, `VF` is 1 iff `V[x]` was at least `V[y]`, equality
included, written last; nothing else but `PC` changes. Its opcode is `0x8005` with `x` and `y` in their fields
(spec/42_alu.md R137). -/
def Obligations.SubWritesDifferenceThenNoBorrow : Prop :=
  ∀ (x y : Reg) (s : State), decodeWord (BitVec.ofNat 16 (0x8005 + 256 * x.val + 16 * y.val)) = .ok (.sub x y) ∧
    ∃ t, exec (.sub x y) s = .next t ∧
    (x ≠ 15 → ((t.reg x).toNat : Int) = ((s.reg x).toNat - (s.reg y).toNat : Int) % 256) ∧
    t.reg 15 = (if (s.reg y).toNat ≤ (s.reg x).toNat then 1 else 0) ∧ t.pc = s.pc + 2 ∧
    ChangesOnlyRegs [x, 15] s t

/-- `8xy7`: `V[x]` is `V[y] - V[x]` modulo 256, `VF` is 1 iff `V[y]` was at least `V[x]`, written last; nothing else but
`PC` changes (spec/42_alu.md R139, general knowledge by the spec's own mark, log 19; its flag by the decision D39,
log 23). -/
def Obligations.SubnWritesDifferenceThenNoBorrow : Prop :=
  ∀ (x y : Reg) (s : State), ∃ t, exec (.subn x y) s = .next t ∧
    (x ≠ 15 → ((t.reg x).toNat : Int) = ((s.reg y).toNat - (s.reg x).toNat : Int) % 256) ∧
    t.reg 15 = (if (s.reg x).toNat ≤ (s.reg y).toNat then 1 else 0) ∧ t.pc = s.pc + 2 ∧
    ChangesOnlyRegs [x, 15] s t

/-- `8xy6` and `8xyE`: the source is `V[x]` or `V[y]` as `SHIFT_SRC` says; `V[x]` is half of it, or twice it modulo
256; `VF` is the bit shifted out, written last; nothing else but `PC` changes (spec/42_alu.md R138, R140, by the spec's
decision D9). -/
def Obligations.ShiftsWriteResultThenShiftedOutBit : Prop :=
  ∀ (x y : Reg) (s : State) (a : Byte),
    (s.config.shiftSrc = .vx → a = s.reg x) → (s.config.shiftSrc = .vy → a = s.reg y) →
    (∃ t, exec (.shr x y) s = .next t ∧ (x ≠ 15 → (t.reg x).toNat = a.toNat / 2) ∧
      (t.reg 15).toNat = a.toNat % 2 ∧ t.pc = s.pc + 2 ∧ ChangesOnlyRegs [x, 15] s t) ∧
    (∃ t, exec (.shl x y) s = .next t ∧ (x ≠ 15 → (t.reg x).toNat = (2 * a.toNat) % 256) ∧
      (t.reg 15).toNat = a.toNat / 128 ∧ t.pc = s.pc + 2 ∧ ChangesOnlyRegs [x, 15] s t)

/-- `Cxkk`: `V[x]` is this step's random byte, 0 to 254, under the mask `kk`; it is 255 for no input; nothing else but
`PC` changes (spec/42_alu.md R141, by the spec's decision D3). -/
def Obligations.RandomIsMaskedAndNever255 : Prop :=
  ∀ (x : Reg) (kk : Byte) (s : State), ∃ t, exec (.rnd x kk) s = .next t ∧
    (∀ k < 8, (t.reg x).getLsbD k = (s.input.rnd.val.testBit k && kk.getLsbD k)) ∧ t.reg x ≠ 255 ∧
    t.pc = s.pc + 2 ∧ ChangesOnlyRegs [x] s t

/-! ## Skips -/

/-- `3xkk`, `4xkk`, `5xy0`, `9xy0`: `PC + 4` when the comparison holds, else `PC + 2`; nothing else changes
(spec/41_skips.md R120 to R124; the four conditions are general knowledge by the spec's own mark, log 19). -/
def Obligations.SkipsCompareRegisters : Prop :=
  (∀ (x : Reg) (kk : Byte) (s : State), ∃ t t', exec (.seImm x kk) s = .next t ∧ exec (.sneImm x kk) s = .next t' ∧
    (s.reg x = kk → t.pc = s.pc + 4 ∧ t'.pc = s.pc + 2) ∧ (s.reg x ≠ kk → t.pc = s.pc + 2 ∧ t'.pc = s.pc + 4) ∧
    ChangesOnlyRegs [] s t ∧ ChangesOnlyRegs [] s t') ∧
  (∀ (x y : Reg) (s : State), ∃ t t', exec (.seReg x y) s = .next t ∧ exec (.sneReg x y) s = .next t' ∧
    (s.reg x = s.reg y → t.pc = s.pc + 4 ∧ t'.pc = s.pc + 2) ∧
    (s.reg x ≠ s.reg y → t.pc = s.pc + 2 ∧ t'.pc = s.pc + 4) ∧
    ChangesOnlyRegs [] s t ∧ ChangesOnlyRegs [] s t')

/-- `Ex9E` and `ExA1`: the key whose index is the low 4 bits of `V[x]`, at the levels of this step; nothing but `PC`
changes (spec/41_skips.md R125, R126, general knowledge by the spec's own mark, log 19; the index by its decision D28,
log 20). -/
def Obligations.SkipsTestTheKeyLevel : Prop :=
  ∀ (x : Reg) (s : State), ∃ t t', exec (.skp x) s = .next t ∧ exec (.sknp x) s = .next t' ∧
    (s.input.keys.getLsbD ((s.reg x).toNat % 16) = true → t.pc = s.pc + 4 ∧ t'.pc = s.pc + 2) ∧
    (s.input.keys.getLsbD ((s.reg x).toNat % 16) = false → t.pc = s.pc + 2 ∧ t'.pc = s.pc + 4) ∧
    ChangesOnlyRegs [] s t ∧ ChangesOnlyRegs [] s t'

/-! ## Control flow and the host hooks -/

/-- `1nnn`: `PC` is `nnn`, odd or below 0x200 as it may be; nothing else changes. Its opcode is `0x1000` with `nnn` in
its field (spec/40_control_flow.md R108). -/
def Obligations.JumpSetsThePc : Prop :=
  ∀ (nnn : Imm12) (s : State), decodeWord (BitVec.ofNat 16 (0x1000 + nnn.toNat)) = .ok (.jp nnn) ∧
    ∃ t, exec (.jp nnn) s = .next t ∧ t.pc.toNat = nnn.toNat ∧ ChangesOnlyRegs [] s t

/-- `Bnnn`: `PC` is `nnn + V0`, not reduced to 12 bits; nothing else changes (spec/40_control_flow.md R104, general
knowledge by the spec's own mark, log 19, with its decisions D4 and D25, log 13, log 23). -/
def Obligations.JumpV0AddsTheOffset : Prop :=
  ∀ (nnn : Imm12) (s : State), ∃ t, exec (.jpV0 nnn) s = .next t ∧ t.pc.toNat = nnn.toNat + (s.reg 0).toNat ∧
    ChangesOnlyRegs [] s t

/-- `2nnn`: the address after the call goes into the slot `SP` names, then `SP` goes up modulo 16 and `PC` is `nnn`;
no other slot changes, whatever `SP` was, and nothing else (spec/40_control_flow.md R109, the order by the spec's
decision D6, log 12). -/
def Obligations.CallPushesTheReturnAddress : Prop :=
  ∀ (nnn : Imm12) (s : State), ∃ t, exec (.call nnn) s = .next t ∧
    (∀ k : Fin 16, t.stack[k] = if k.val = s.sp.toNat then s.pc + 2 else s.stack[k]) ∧
    t.sp.toNat = (s.sp.toNat + 1) % 16 ∧ t.pc.toNat = nnn.toNat ∧ KeepsRegs [] s t ∧ t.i = s.i ∧ KeepsTimers s t ∧
    KeepsMemory s t ∧ KeepsPicture s t ∧ KeepsColours s t ∧ KeepsRunning s t ∧ KeepsSession s t

/-- `00EE`: `SP` goes down modulo 16 and `PC` is the slot it then names, which keeps its value; nothing else changes.
A return right after a call resumes after the call site with `SP` as it was before the call, at every depth, the 17th
nested call included (spec/40_control_flow.md R101, R109, the order by the spec's decision D6, log 12). -/
def Obligations.ReturnPopsTheStackAndResumes : Prop :=
  (∀ s : State, ∃ t, exec .ret s = .next t ∧ t.sp.toNat = (s.sp.toNat + 15) % 16 ∧
    (∀ k : Fin 16, k.val = (s.sp.toNat + 15) % 16 → t.pc = s.stack[k]) ∧ t.stack = s.stack ∧ KeepsRegs [] s t ∧
    t.i = s.i ∧ KeepsTimers s t ∧ KeepsMemory s t ∧ KeepsPicture s t ∧ KeepsColours s t ∧ KeepsRunning s t ∧
    KeepsSession s t) ∧
  (∀ (nnn : Imm12) (s : State), ∃ t u, exec (.call nnn) s = .next t ∧ exec .ret t = .next u ∧ u.pc = s.pc + 2 ∧
    u.sp = s.sp)

/-- `00FD` raises `Exit`; `Fx30`, `Fx75` and `Fx85` raise `Unsupported`: the status takes the condition and nothing
else changes, `PC` included (spec/40_control_flow.md R102, spec/60_exceptions.md R202, R204, by the spec's decision
D19). -/
def Obligations.ExitAndUnsupportedRaiseTheirConditions : Prop :=
  (∀ s : State, exec .exit s = .next { s with status := .exited }) ∧
  (∀ (x : Reg) (s : State), exec (.unsupportedFx30 x) s = .next { s with status := .unsupported } ∧
    exec (.unsupportedFx75 x) s = .next { s with status := .unsupported } ∧
    exec (.unsupportedFx85 x) s = .next { s with status := .unsupported })

/-- `0101` leaves exactly the reset state, from any state: the values and the memory of spec/10_state.md R41, with `PC`
= 0x200 and every store undone; `EndTone` is emitted if the tone was on, then `LoadProgram`
(spec/40_control_flow.md R105, by the spec's decisions D7 and D21, log 4, log 18). -/
def Obligations.SoftResetLeavesTheResetState : Prop :=
  ∀ s : State, ∃ t, exec .sys101 s = .next t ∧ HoldsResetValues t ∧ HoldsResetMemory t ∧ KeepsSession s t ∧
    t.events = s.events ++ (if s.tone = true then [.endTone, .loadProgram] else [.loadProgram])

/-! ## Index register, loads and stores -/

/-- `Annn`, `Fx1E`, `Fx29`: `I` is `nnn`; the sum modulo 65536; five times `V[x]`, unmasked. Nothing else but `PC`
changes, and `VF` not (spec/43_index_memory.md R151 to R153; `Annn` and `Fx29` are general knowledge by the spec's own
mark, log 19; with its decisions D5 and D27, log 13, log 20). -/
def Obligations.IndexRegisterResults : Prop :=
  (∀ (nnn : Imm12) (s : State), ∃ t, exec (.ldI nnn) s = .next t ∧ t.i.toNat = nnn.toNat ∧ t.pc = s.pc + 2 ∧
    ChangesOnlyIndex s t) ∧
  (∀ (x : Reg) (s : State), ∃ t, exec (.addI x) s = .next t ∧ t.i.toNat = (s.i.toNat + (s.reg x).toNat) % 65536 ∧
    t.pc = s.pc + 2 ∧ ChangesOnlyIndex s t) ∧
  (∀ (x : Reg) (s : State), ∃ t, exec (.ldF x) s = .next t ∧ t.i.toNat = 5 * (s.reg x).toNat ∧ t.pc = s.pc + 2 ∧
    ChangesOnlyIndex s t)

/-- `Fx33`: hundreds, tens and ones of `V[x]` at `I`, `I + 1`, `I + 2`, each address masked by itself; every other byte
and all else but `PC` is as before. Its opcode is `0xF033` with `x` in its field (spec/43_index_memory.md R154). -/
def Obligations.BcdStoresThreeDigits : Prop :=
  ∀ (x : Reg) (s : State), Memory.wf s.config s.memory = true →
    decodeWord (BitVec.ofNat 16 (0xF033 + 256 * x.val)) = .ok (.ldB x) ∧
    ∃ t, exec (.ldB x) s = .next t ∧
    (t.memRead s.i.toNat).toNat = (s.reg x).toNat / 100 ∧
    (t.memRead (s.i.toNat + 1)).toNat = (s.reg x).toNat / 10 % 10 ∧
    (t.memRead (s.i.toNat + 2)).toNat = (s.reg x).toNat % 10 ∧ t.pc = s.pc + 2 ∧
    ChangesOnlyMemory s.i.toNat 3 s t

/-- `Fx55`: `V[0]`..`V[x]`, x included, at `I`, `I + 1`, …, each address masked by itself; every other byte and all
else but `PC` is as before, `I` included (spec/43_index_memory.md R155, `I` by the spec's decision D26). -/
def Obligations.BlockStoreWritesRegistersUpToX : Prop :=
  ∀ (x : Reg) (s : State), Memory.wf s.config s.memory = true → ∃ t, exec (.storeRegs x) s = .next t ∧
    (∀ r : Reg, r ≤ x → t.memRead (s.i.toNat + r.val) = s.reg r) ∧ t.pc = s.pc + 2 ∧
    ChangesOnlyMemory s.i.toNat (x.val + 1) s t

/-- `Fx65`: `V[0]`..`V[x]`, x included, from `I`, `I + 1`, …, each address masked by itself; the registers above `x`,
`I` and all else but `PC` are as before (spec/43_index_memory.md R156, `I` by the spec's decision D26). -/
def Obligations.BlockLoadReadsRegistersUpToX : Prop :=
  ∀ (x : Reg) (s : State), ∃ t, exec (.loadRegs x) s = .next t ∧
    (∀ r : Reg, r ≤ x → t.reg r = s.memRead ((s.i.toNat + r.val) % 4096)) ∧ (∀ r : Reg, x < r → t.reg r = s.reg r) ∧
    t.pc = s.pc + 2 ∧ t.i = s.i ∧ KeepsStack s t ∧ KeepsTimers s t ∧ KeepsMemory s t ∧ KeepsPicture s t ∧
    KeepsColours s t ∧ KeepsRunning s t ∧ KeepsSession s t

/-- A read is of the masked address. A write of one byte sets the byte at the masked address and no other, and changes
no other state; both give a value for every address (spec/20_memory.md R62). -/
def Obligations.MemoryWriteSetsOneByte : Prop :=
  ∀ (s : State) (a : Nat) (b : Byte), Memory.wf s.config s.memory = true →
    (∀ a', s.memRead a' = s.memRead (a' % 4096)) ∧
    (∀ a', (s.memStore a [b]).memRead a' = if a' % 4096 = a % 4096 then b else s.memRead a') ∧
    s.memStore a [b] = { s with memory := (s.memStore a [b]).memory }

/-! ## Timers and keys -/

/-- `Fx07` and `Fx15`: the delay timer into `V[x]`, and `V[x]` into the delay timer; nothing else but `PC` changes
(spec/44_timers_keys.md R160, R162, general knowledge by the spec's own mark, log 19; the gate then runs in the same
step). -/
def Obligations.DelayTimerIsReadAndWritten : Prop :=
  ∀ (x : Reg) (s : State),
    (∃ t, exec (.ldVxDt x) s = .next t ∧ t.reg x = s.dt ∧ t.pc = s.pc + 2 ∧ ChangesOnlyRegs [x] s t) ∧
    (∃ t, exec (.ldDtVx x) s = .next t ∧ t.dt = s.reg x ∧ t.pc = s.pc + 2 ∧ t.st = s.st ∧ t.tone = s.tone ∧
      KeepsRegs [] s t ∧ t.i = s.i ∧ KeepsStack s t ∧ KeepsMemory s t ∧ KeepsPicture s t ∧ KeepsColours s t ∧
      KeepsRunning s t ∧ KeepsSession s t)

/-- `Fx18`: `ST` is `V[x]`; from 0 to not 0 the tone starts, from not 0 to 0 it stops, each with its event, and
otherwise neither; nothing else but `PC` changes (spec/44_timers_keys.md R163; that `Fx18` writes `ST` is general
knowledge by the spec's own mark, log 19, and the stop its decision D29, log 21). -/
def Obligations.SoundTimerWriteDrivesTheTone : Prop :=
  ∀ (x : Reg) (s : State), ∃ t, exec (.ldStVx x) s = .next t ∧ t.st = s.reg x ∧ t.pc = s.pc + 2 ∧
    (s.st = 0 → s.reg x ≠ 0 → t.tone = true ∧ t.events = s.events ++ [.beginTone]) ∧
    (s.st ≠ 0 → s.reg x = 0 → t.tone = false ∧ t.events = s.events ++ [.endTone]) ∧
    ((s.st = 0 ↔ s.reg x = 0) → t.tone = s.tone ∧ t.events = s.events) ∧
    t.dt = s.dt ∧ KeepsRegs [] s t ∧ t.i = s.i ∧ KeepsStack s t ∧ KeepsMemory s t ∧ KeepsPicture s t ∧
    KeepsColours s t ∧ t.status = s.status ∧ KeepsSession s t

/-- `Fx0A`: with no key down nothing changes, `PC` included; else `V[x]` is the least key that is down and `PC` goes on;
nothing else changes (spec/44_timers_keys.md R161; a level and not an edge by the spec's decision D34, log 21). -/
def Obligations.KeyWaitTakesTheLeastKey : Prop :=
  ∀ (x : Reg) (s : State),
    ((∀ k < 16, s.input.keys.getLsbD k = false) → exec (.ldVxK x) s = .next s) ∧
    (∀ k < 16, s.input.keys.getLsbD k = true → (∀ j < k, s.input.keys.getLsbD j = false) →
      ∃ t, exec (.ldVxK x) s = .next t ∧ (t.reg x).toNat = k ∧ t.pc = s.pc + 2 ∧ ChangesOnlyRegs [x] s t)

/-! ## Display -/

/-- `00E0`: every live cell is the background byte, and the plane is dirty; `VF`, the width and all else but `PC` are
as before. Its opcode is `0x00E0` (spec/45_display.md R170, R173). -/
def Obligations.ClearFillsWithTheBackground : Prop :=
  decodeWord 0x00E0#16 = .ok .cls ∧
  ∀ s : State, ∃ t, exec .cls s = .next t ∧ (∀ px py, OnPlane s px py → t.cell px py = s.bg) ∧ t.dirty = true ∧
    t.width = s.width ∧ t.events = s.events ∧ t.pc = s.pc + 2 ∧ ChangesOnlyPicture [] s t

/-- `00Cn`, `00FB`, `00FC`: down by `n` rows, right and left by 4 columns, all from the plane before; what is vacated
is the background byte; the plane is dirty; nothing else but `PC` changes (spec/45_display.md R174 to R176, the fill by
the spec's decision D15, log 15). -/
def Obligations.ScrollsMoveEveryCell : Prop :=
  (∀ (n : Nibble) (s : State), ∃ t, exec (.scd n) s = .next t ∧
    (∀ px py, OnPlane s px py → t.cell px py = if py < n.toNat then s.bg else s.cell px (py - n.toNat)) ∧
    t.dirty = true ∧ t.width = s.width ∧ t.events = s.events ∧ t.pc = s.pc + 2 ∧ ChangesOnlyPicture [] s t) ∧
  (∀ s : State, ∃ t, exec .scr s = .next t ∧
    (∀ px py, OnPlane s px py → t.cell px py = if px < 4 then s.bg else s.cell (px - 4) py) ∧
    t.dirty = true ∧ t.width = s.width ∧ t.events = s.events ∧ t.pc = s.pc + 2 ∧ ChangesOnlyPicture [] s t) ∧
  (∀ s : State, ∃ t, exec .scl s = .next t ∧
    (∀ px py, OnPlane s px py → t.cell px py = if s.width.cols ≤ px + 4 then s.bg else s.cell (px + 4) py) ∧
    t.dirty = true ∧ t.width = s.width ∧ t.events = s.events ∧ t.pc = s.pc + 2 ∧ ChangesOnlyPicture [] s t)

/-- `00FE` and `00FF`: the width is 64 or 128, every cell of the new live region is the background byte, the plane is
dirty and the width is notified, also when it does not change; nothing else but `PC` changes
(spec/45_display.md R171, R177, R178; the notification by the spec's decision D36, log 22). -/
def Obligations.WidthModesResizeAndClear : Prop :=
  ∀ s : State,
    (∃ t, exec .low s = .next t ∧ t.width = .w64 ∧ (∀ px py, px < 64 → py < 32 → t.cell px py = s.bg) ∧
      t.dirty = true ∧ t.events = s.events ++ [.resize .w64] ∧ t.pc = s.pc + 2 ∧ ChangesOnlyPicture [] s t) ∧
    (∃ t, exec .high s = .next t ∧ t.width = .w128 ∧ (∀ px py, px < 128 → py < 64 → t.cell px py = s.bg) ∧
      t.dirty = true ∧ t.events = s.events ++ [.resize .w128] ∧ t.pc = s.pc + 2 ∧ ChangesOnlyPicture [] s t)

/-- `0100` emits the frequency hint with the byte of `V0`; `0102` sets the colours to `V0` and `V1` and repaints
nothing, the dirty flag not set. Nothing else but `PC` changes (spec/40_control_flow.md R103, spec/45_display.md R179,
by the spec's decisions D22 and D23, log 22). -/
def Obligations.FrequencyHintAndColourHooks : Prop :=
  ∀ s : State,
    (∃ t, exec .sys100 s = .next t ∧ t.events = s.events ++ [.setFrequency (s.reg 0)] ∧ t.pc = s.pc + 2 ∧
      KeepsRegs [] s t ∧ t.i = s.i ∧ KeepsStack s t ∧ KeepsTimers s t ∧ KeepsMemory s t ∧ KeepsPicture s t ∧
      KeepsColours s t ∧ t.status = s.status ∧ KeepsSession s t) ∧
    (∃ t, exec .sys102 s = .next t ∧ t.fg = s.reg 0 ∧ t.bg = s.reg 1 ∧ t.pc = s.pc + 2 ∧ KeepsRegs [] s t ∧
      t.i = s.i ∧ KeepsStack s t ∧ KeepsTimers s t ∧ KeepsMemory s t ∧ KeepsPicture s t ∧ KeepsRunning s t ∧
      KeepsSession s t)

/-- `Dxyn`: each pixel of the plane that the sprite lights is plotted once, on the plane as it was, in the drawing mode
in force; every other cell is as it was; what lies off the plane is dropped. `VF`, written last, is 1 iff a lit pixel
on the plane met a lit cell, else 0; the plane is dirty; nothing else but `PC` changes (spec/45_display.md R172, R180,
by the spec's decisions D8, D10 and D12 to D14, log 14). -/
def Obligations.DrawPlotsEachLitPixelOnce : Prop :=
  ∀ (x y : Reg) (n : Nibble) (s : State), Plane.wf s.width s.plane = true →
    ∃ t, exec (.drw x y n) s = .next t ∧
      (∀ px py, OnPlane s px py → ¬SpriteLights s x y n px py → t.cell px py = s.cell px py) ∧
      (∀ px py, OnPlane s px py → SpriteLights s x y n px py →
        (s.config.drawMode = .overwrite → t.cell px py = if s.cell px py = s.fg then s.bg else s.fg) ∧
        (s.config.drawMode = .xor → ∀ k, (t.cell px py).getLsbD k = ((s.cell px py).getLsbD k ^^ decide (k = 0)))) ∧
      ((∃ px py, OnPlane s px py ∧ SpriteLights s x y n px py ∧ CellIsLit s px py) → t.reg 15 = 1) ∧
      ((¬∃ px py, OnPlane s px py ∧ SpriteLights s x y n px py ∧ CellIsLit s px py) → t.reg 15 = 0) ∧
      t.dirty = true ∧ t.width = s.width ∧ t.events = s.events ∧ t.pc = s.pc + 2 ∧ ChangesOnlyPicture [15] s t

/-- Drawing the same sprite twice in `XOR` mode gives every cell back, and the second draw reports a collision if the
first one lit a cell (derived from spec/45_display.md R172 and R180, by the spec's decisions D8, D10, D12 and D14,
log 14). With `x` or `y` equal to 15 the first draw overwrites a coordinate, so the second draws elsewhere; that draw is
covered by `DrawPlotsEachLitPixelOnce`. -/
def Obligations.XorDrawTwiceRestoresThePicture : Prop :=
  ∀ (x y : Reg) (n : Nibble) (s : State), Plane.wf s.width s.plane = true → s.config.drawMode = .xor → x ≠ 15 →
    y ≠ 15 → ∃ t u, exec (.drw x y n) s = .next t ∧ exec (.drw x y n) t = .next u ∧
      (∀ px py, OnPlane s px py → u.cell px py = s.cell px py) ∧
      ((∃ px py, OnPlane s px py ∧ SpriteLights s x y n px py ∧ ¬CellIsLit s px py) → u.reg 15 = 1)

/-! ## Reset and refresh -/

/-- `Reset(image)`, from any state and in any status: the values and the memory of spec/10_state.md R41 with that
image, cut to its first 3584 bytes, and nothing of the old state (spec/70_reset_and_hazards.md R230, R231, by the
spec's decisions D7 and D33, log 4). The parameters and the host's inputs are not the machine's (log 2, log 1). -/
def Obligations.HostResetLoadsTheImage : Prop :=
  ∀ (image : List Byte) (s : State),
    HoldsResetValues (s.hostReset image) ∧ HoldsResetMemory (s.hostReset image) ∧
    (s.hostReset image).config = { s.config with image := image } ∧ (s.hostReset image).inputs = s.inputs ∧
    (s.hostReset image).events = if s.tone = true then [.endTone, .loadProgram] else [.loadProgram]

/-- The state the model calls reset holds the values and the memory of spec/10_state.md R41 for an empty image (by the
spec's decision D7, log 4). -/
def Obligations.ResetStateHoldsTheListedValues : Prop :=
  HoldsResetValues State.reset ∧ HoldsResetMemory State.reset ∧ State.reset.config.image = []

/-- `Refresh` shows the live cells, row by row, if the plane is dirty, and clears the flag; it changes nothing else and
works in any status (spec/60_exceptions.md R214, by the spec's decision D40, log 10). -/
def Obligations.RefreshShowsADirtyPlane : Prop :=
  ∀ s : State, s.refresh = { s with dirty := false, events := s.refresh.events } ∧
    (s.dirty = false → s.refresh.events = []) ∧
    (s.dirty = true → ∃ cells, s.refresh.events = [.draw cells s.width] ∧
      cells.length = s.width.cols * s.width.rows ∧
      ∀ px py, OnPlane s px py → cells[py * s.width.cols + px]? = some (s.cell px py))
end

