-- ==== Sys2Proof/Laws/PerInstr.lean ====
section
/-! SUPPORT. Per instruction: its encoding belongs to its own row of the opcode table (spec/30_encoding.md R91). -/

namespace Sys2Proof.Laws.RowMatch

/-- The row of each instruction, by its mnemonic in spec/opcode_table.json. -/
def mnemonic : Instr → String
  | .scd _ => "SCD_n"
  | .cls => "CLS"
  | .ret => "RET"
  | .scr => "SCR"
  | .scl => "SCL"
  | .exit => "EXIT"
  | .low => "LOW"
  | .high => "HIGH"
  | .sys100 => "SYS_0x100"
  | .sys101 => "SYS_0x101"
  | .sys102 => "SYS_0x102"
  | .jp _ => "JP_nnn"
  | .call _ => "CALL_nnn"
  | .seImm _ _ => "SE_Vx__kk"
  | .sneImm _ _ => "SNE_Vx__kk"
  | .seReg _ _ => "SE_Vx__Vy"
  | .ldImm _ _ => "LD_Vx__kk"
  | .addImm _ _ => "ADD_Vx__kk"
  | .ldReg _ _ => "LD_Vx__Vy"
  | .or _ _ => "OR_Vx__Vy"
  | .and _ _ => "AND_Vx__Vy"
  | .xor _ _ => "XOR_Vx__Vy"
  | .addReg _ _ => "ADD_Vx__Vy"
  | .sub _ _ => "SUB_Vx__Vy"
  | .shr _ _ => "SHR_Vx__Vy"
  | .subn _ _ => "SUBN_Vx__Vy"
  | .shl _ _ => "SHL_Vx__Vy"
  | .sneReg _ _ => "SNE_Vx__Vy"
  | .ldI _ => "LD_I__nnn"
  | .jpV0 _ => "JP_V0__nnn"
  | .rnd _ _ => "RND_Vx__kk"
  | .drw _ _ _ => "DRW_Vx__Vy__n"
  | .skp _ => "SKP_Vx"
  | .sknp _ => "SKNP_Vx"
  | .ldVxDt _ => "LD_Vx__DT"
  | .ldVxK _ => "LD_Vx__K"
  | .ldDtVx _ => "LD_DT__Vx"
  | .ldStVx _ => "LD_ST__Vx"
  | .addI _ => "ADD_I__Vx"
  | .ldF _ => "LD_F__Vx"
  | .ldB _ => "LD_B__Vx"
  | .storeRegs _ => "LD__I___Vx"
  | .loadRegs _ => "LD_Vx___I"
  | .unsupportedFx30 _ => "UNSUPPORTED_Fx30"
  | .unsupportedFx75 _ => "UNSUPPORTED_Fx75"
  | .unsupportedFx85 _ => "UNSUPPORTED_Fx85"

/-- The instruction's opcode belongs to the instruction's own row. -/
def Statement (i : Instr) : Prop :=
  ∃ r ∈ opcodeTable, r.mnemonic = mnemonic i ∧ r.accepts (encodeWord i) = true

theorem scd (n : Nibble) : Statement (.scd n) :=
  ⟨⟨"SCD_n", 0x00c0#16, 0xfff0#16⟩, by simp [opcodeTable, opcodeTableFamily0], rfl, beq_iff_eq.mpr (by rw [encodeWord, formatZN_mask]; rfl)⟩
theorem cls : Statement .cls :=
  ⟨⟨"CLS", 0x00e0#16, 0xffff#16⟩, by simp [opcodeTable, opcodeTableFamily0], rfl, rfl⟩
theorem ret : Statement .ret :=
  ⟨⟨"RET", 0x00ee#16, 0xffff#16⟩, by simp [opcodeTable, opcodeTableFamily0], rfl, rfl⟩
theorem scr : Statement .scr :=
  ⟨⟨"SCR", 0x00fb#16, 0xffff#16⟩, by simp [opcodeTable, opcodeTableFamily0], rfl, rfl⟩
theorem scl : Statement .scl :=
  ⟨⟨"SCL", 0x00fc#16, 0xffff#16⟩, by simp [opcodeTable, opcodeTableFamily0], rfl, rfl⟩
theorem exit : Statement .exit :=
  ⟨⟨"EXIT", 0x00fd#16, 0xffff#16⟩, by simp [opcodeTable, opcodeTableFamily0], rfl, rfl⟩
theorem low : Statement .low :=
  ⟨⟨"LOW", 0x00fe#16, 0xffff#16⟩, by simp [opcodeTable, opcodeTableFamily0], rfl, rfl⟩
theorem high : Statement .high :=
  ⟨⟨"HIGH", 0x00ff#16, 0xffff#16⟩, by simp [opcodeTable, opcodeTableFamily0], rfl, rfl⟩
theorem sys100 : Statement .sys100 :=
  ⟨⟨"SYS_0x100", 0x0100#16, 0xffff#16⟩, by simp [opcodeTable, opcodeTableFamily0], rfl, rfl⟩
theorem sys101 : Statement .sys101 :=
  ⟨⟨"SYS_0x101", 0x0101#16, 0xffff#16⟩, by simp [opcodeTable, opcodeTableFamily0], rfl, rfl⟩
theorem sys102 : Statement .sys102 :=
  ⟨⟨"SYS_0x102", 0x0102#16, 0xffff#16⟩, by simp [opcodeTable, opcodeTableFamily0], rfl, rfl⟩
theorem jp (nnn : Imm12) : Statement (.jp nnn) :=
  ⟨⟨"JP_nnn", 0x1000#16, 0xf000#16⟩, by simp [opcodeTable, opcodeTableFamilies1To7], rfl, beq_iff_eq.mpr (by rw [encodeWord, formatA_mask]; rfl)⟩
theorem call (nnn : Imm12) : Statement (.call nnn) :=
  ⟨⟨"CALL_nnn", 0x2000#16, 0xf000#16⟩, by simp [opcodeTable, opcodeTableFamilies1To7], rfl, beq_iff_eq.mpr (by rw [encodeWord, formatA_mask]; rfl)⟩
theorem seImm (x : Reg) (kk : Byte) : Statement (.seImm x kk) :=
  ⟨⟨"SE_Vx__kk", 0x3000#16, 0xf000#16⟩, by simp [opcodeTable, opcodeTableFamilies1To7], rfl, beq_iff_eq.mpr (by rw [encodeWord, formatXK_mask]; rfl)⟩
theorem sneImm (x : Reg) (kk : Byte) : Statement (.sneImm x kk) :=
  ⟨⟨"SNE_Vx__kk", 0x4000#16, 0xf000#16⟩, by simp [opcodeTable, opcodeTableFamilies1To7], rfl, beq_iff_eq.mpr (by rw [encodeWord, formatXK_mask]; rfl)⟩
theorem seReg (x : Reg) (y : Reg) : Statement (.seReg x y) :=
  ⟨⟨"SE_Vx__Vy", 0x5000#16, 0xf00f#16⟩, by simp [opcodeTable, opcodeTableFamilies1To7], rfl, beq_iff_eq.mpr (by rw [encodeWord, formatXYN_mask_XY]; rfl)⟩
theorem ldImm (x : Reg) (kk : Byte) : Statement (.ldImm x kk) :=
  ⟨⟨"LD_Vx__kk", 0x6000#16, 0xf000#16⟩, by simp [opcodeTable, opcodeTableFamilies1To7], rfl, beq_iff_eq.mpr (by rw [encodeWord, formatXK_mask]; rfl)⟩
theorem addImm (x : Reg) (kk : Byte) : Statement (.addImm x kk) :=
  ⟨⟨"ADD_Vx__kk", 0x7000#16, 0xf000#16⟩, by simp [opcodeTable, opcodeTableFamilies1To7], rfl, beq_iff_eq.mpr (by rw [encodeWord, formatXK_mask]; rfl)⟩
theorem ldReg (x : Reg) (y : Reg) : Statement (.ldReg x y) :=
  ⟨⟨"LD_Vx__Vy", 0x8000#16, 0xf00f#16⟩, by simp [opcodeTable, opcodeTableFamilies8To9], rfl, beq_iff_eq.mpr (by rw [encodeWord, formatXYN_mask_XY]; rfl)⟩
theorem or (x : Reg) (y : Reg) : Statement (.or x y) :=
  ⟨⟨"OR_Vx__Vy", 0x8001#16, 0xf00f#16⟩, by simp [opcodeTable, opcodeTableFamilies8To9], rfl, beq_iff_eq.mpr (by rw [encodeWord, formatXYN_mask_XY]; rfl)⟩
theorem and (x : Reg) (y : Reg) : Statement (.and x y) :=
  ⟨⟨"AND_Vx__Vy", 0x8002#16, 0xf00f#16⟩, by simp [opcodeTable, opcodeTableFamilies8To9], rfl, beq_iff_eq.mpr (by rw [encodeWord, formatXYN_mask_XY]; rfl)⟩
theorem xor (x : Reg) (y : Reg) : Statement (.xor x y) :=
  ⟨⟨"XOR_Vx__Vy", 0x8003#16, 0xf00f#16⟩, by simp [opcodeTable, opcodeTableFamilies8To9], rfl, beq_iff_eq.mpr (by rw [encodeWord, formatXYN_mask_XY]; rfl)⟩
theorem addReg (x : Reg) (y : Reg) : Statement (.addReg x y) :=
  ⟨⟨"ADD_Vx__Vy", 0x8004#16, 0xf00f#16⟩, by simp [opcodeTable, opcodeTableFamilies8To9], rfl, beq_iff_eq.mpr (by rw [encodeWord, formatXYN_mask_XY]; rfl)⟩
theorem sub (x : Reg) (y : Reg) : Statement (.sub x y) :=
  ⟨⟨"SUB_Vx__Vy", 0x8005#16, 0xf00f#16⟩, by simp [opcodeTable, opcodeTableFamilies8To9], rfl, beq_iff_eq.mpr (by rw [encodeWord, formatXYN_mask_XY]; rfl)⟩
theorem shr (x : Reg) (y : Reg) : Statement (.shr x y) :=
  ⟨⟨"SHR_Vx__Vy", 0x8006#16, 0xf00f#16⟩, by simp [opcodeTable, opcodeTableFamilies8To9], rfl, beq_iff_eq.mpr (by rw [encodeWord, formatXYN_mask_XY]; rfl)⟩
theorem subn (x : Reg) (y : Reg) : Statement (.subn x y) :=
  ⟨⟨"SUBN_Vx__Vy", 0x8007#16, 0xf00f#16⟩, by simp [opcodeTable, opcodeTableFamilies8To9], rfl, beq_iff_eq.mpr (by rw [encodeWord, formatXYN_mask_XY]; rfl)⟩
theorem shl (x : Reg) (y : Reg) : Statement (.shl x y) :=
  ⟨⟨"SHL_Vx__Vy", 0x800e#16, 0xf00f#16⟩, by simp [opcodeTable, opcodeTableFamilies8To9], rfl, beq_iff_eq.mpr (by rw [encodeWord, formatXYN_mask_XY]; rfl)⟩
theorem sneReg (x : Reg) (y : Reg) : Statement (.sneReg x y) :=
  ⟨⟨"SNE_Vx__Vy", 0x9000#16, 0xf00f#16⟩, by simp [opcodeTable, opcodeTableFamilies8To9], rfl, beq_iff_eq.mpr (by rw [encodeWord, formatXYN_mask_XY]; rfl)⟩
theorem ldI (nnn : Imm12) : Statement (.ldI nnn) :=
  ⟨⟨"LD_I__nnn", 0xa000#16, 0xf000#16⟩, by simp [opcodeTable, opcodeTableFamiliesAToE], rfl, beq_iff_eq.mpr (by rw [encodeWord, formatA_mask]; rfl)⟩
theorem jpV0 (nnn : Imm12) : Statement (.jpV0 nnn) :=
  ⟨⟨"JP_V0__nnn", 0xb000#16, 0xf000#16⟩, by simp [opcodeTable, opcodeTableFamiliesAToE], rfl, beq_iff_eq.mpr (by rw [encodeWord, formatA_mask]; rfl)⟩
theorem rnd (x : Reg) (kk : Byte) : Statement (.rnd x kk) :=
  ⟨⟨"RND_Vx__kk", 0xc000#16, 0xf000#16⟩, by simp [opcodeTable, opcodeTableFamiliesAToE], rfl, beq_iff_eq.mpr (by rw [encodeWord, formatXK_mask]; rfl)⟩
theorem drw (x : Reg) (y : Reg) (n : Nibble) : Statement (.drw x y n) :=
  ⟨⟨"DRW_Vx__Vy__n", 0xd000#16, 0xf000#16⟩, by simp [opcodeTable, opcodeTableFamiliesAToE], rfl, beq_iff_eq.mpr (by rw [encodeWord, formatXYN_mask]; rfl)⟩
theorem skp (x : Reg) : Statement (.skp x) :=
  ⟨⟨"SKP_Vx", 0xe09e#16, 0xf0ff#16⟩, by simp [opcodeTable, opcodeTableFamiliesAToE], rfl, beq_iff_eq.mpr (by rw [encodeWord, formatXK_mask_X]; rfl)⟩
theorem sknp (x : Reg) : Statement (.sknp x) :=
  ⟨⟨"SKNP_Vx", 0xe0a1#16, 0xf0ff#16⟩, by simp [opcodeTable, opcodeTableFamiliesAToE], rfl, beq_iff_eq.mpr (by rw [encodeWord, formatXK_mask_X]; rfl)⟩
theorem ldVxDt (x : Reg) : Statement (.ldVxDt x) :=
  ⟨⟨"LD_Vx__DT", 0xf007#16, 0xf0ff#16⟩, by simp [opcodeTable, opcodeTableFamilyF], rfl, beq_iff_eq.mpr (by rw [encodeWord, formatXK_mask_X]; rfl)⟩
theorem ldVxK (x : Reg) : Statement (.ldVxK x) :=
  ⟨⟨"LD_Vx__K", 0xf00a#16, 0xf0ff#16⟩, by simp [opcodeTable, opcodeTableFamilyF], rfl, beq_iff_eq.mpr (by rw [encodeWord, formatXK_mask_X]; rfl)⟩
theorem ldDtVx (x : Reg) : Statement (.ldDtVx x) :=
  ⟨⟨"LD_DT__Vx", 0xf015#16, 0xf0ff#16⟩, by simp [opcodeTable, opcodeTableFamilyF], rfl, beq_iff_eq.mpr (by rw [encodeWord, formatXK_mask_X]; rfl)⟩
theorem ldStVx (x : Reg) : Statement (.ldStVx x) :=
  ⟨⟨"LD_ST__Vx", 0xf018#16, 0xf0ff#16⟩, by simp [opcodeTable, opcodeTableFamilyF], rfl, beq_iff_eq.mpr (by rw [encodeWord, formatXK_mask_X]; rfl)⟩
theorem addI (x : Reg) : Statement (.addI x) :=
  ⟨⟨"ADD_I__Vx", 0xf01e#16, 0xf0ff#16⟩, by simp [opcodeTable, opcodeTableFamilyF], rfl, beq_iff_eq.mpr (by rw [encodeWord, formatXK_mask_X]; rfl)⟩
theorem ldF (x : Reg) : Statement (.ldF x) :=
  ⟨⟨"LD_F__Vx", 0xf029#16, 0xf0ff#16⟩, by simp [opcodeTable, opcodeTableFamilyF], rfl, beq_iff_eq.mpr (by rw [encodeWord, formatXK_mask_X]; rfl)⟩
theorem ldB (x : Reg) : Statement (.ldB x) :=
  ⟨⟨"LD_B__Vx", 0xf033#16, 0xf0ff#16⟩, by simp [opcodeTable, opcodeTableFamilyF], rfl, beq_iff_eq.mpr (by rw [encodeWord, formatXK_mask_X]; rfl)⟩
theorem storeRegs (x : Reg) : Statement (.storeRegs x) :=
  ⟨⟨"LD__I___Vx", 0xf055#16, 0xf0ff#16⟩, by simp [opcodeTable, opcodeTableFamilyF], rfl, beq_iff_eq.mpr (by rw [encodeWord, formatXK_mask_X]; rfl)⟩
theorem loadRegs (x : Reg) : Statement (.loadRegs x) :=
  ⟨⟨"LD_Vx___I", 0xf065#16, 0xf0ff#16⟩, by simp [opcodeTable, opcodeTableFamilyF], rfl, beq_iff_eq.mpr (by rw [encodeWord, formatXK_mask_X]; rfl)⟩
theorem unsupportedFx30 (x : Reg) : Statement (.unsupportedFx30 x) :=
  ⟨⟨"UNSUPPORTED_Fx30", 0xf030#16, 0xf0ff#16⟩, by simp [opcodeTable, opcodeTableFamilyF], rfl, beq_iff_eq.mpr (by rw [encodeWord, formatXK_mask_X]; rfl)⟩
theorem unsupportedFx75 (x : Reg) : Statement (.unsupportedFx75 x) :=
  ⟨⟨"UNSUPPORTED_Fx75", 0xf075#16, 0xf0ff#16⟩, by simp [opcodeTable, opcodeTableFamilyF], rfl, beq_iff_eq.mpr (by rw [encodeWord, formatXK_mask_X]; rfl)⟩
theorem unsupportedFx85 (x : Reg) : Statement (.unsupportedFx85 x) :=
  ⟨⟨"UNSUPPORTED_Fx85", 0xf085#16, 0xf0ff#16⟩, by simp [opcodeTable, opcodeTableFamilyF], rfl, beq_iff_eq.mpr (by rw [encodeWord, formatXK_mask_X]; rfl)⟩

end Sys2Proof.Laws.RowMatch
end

