-- ==== Sys2Proof/Tests/Slice0.lean ====
section
/-! SUPPORT. The model's own tests. Expected values come from outside the model: the opcode patterns of
spec/30_encoding.md, and the vectors S1 to S9 and T1 to T163 of spec/95_test_vectors.md, named in each comment. After
them, for each statement with hypotheses, a witness that meets them. -/

namespace Sys2Proof.Tests

open Sys2Proof.Machine
open Host (Outcome)

/-! ### Well-formed opcodes and images -/

/-- Each row group has an opcode (R84). -/
theorem test_wellFormed_accepts :
    opcodeWellFormed 0x00CF#16 = true ∧ opcodeWellFormed 0x0102#16 = true ∧ opcodeWellFormed 0x5120#16 = true ∧
      opcodeWellFormed 0x8FFE#16 = true ∧ opcodeWellFormed 0xEF9E#16 = true ∧ opcodeWellFormed 0xFF65#16 = true := by
  decide

/-- The invalid encodings of R86, one of each kind: family 0 (T12 to T14), 5, 9 (T27, T30), 8 (T69, T70), E, F. -/
theorem test_wellFormed_refuses :
    opcodeWellFormed 0x0000#16 = false ∧ opcodeWellFormed 0x00F0#16 = false ∧ opcodeWellFormed 0x0103#16 = false ∧
      opcodeWellFormed 0x5121#16 = false ∧ opcodeWellFormed 0x912F#16 = false ∧ opcodeWellFormed 0x8128#16 = false ∧
      opcodeWellFormed 0x812F#16 = false ∧ opcodeWellFormed 0xE09F#16 = false ∧ opcodeWellFormed 0xF100#16 = false := by
  decide

/-- An image of 3584 bytes is the longest (R38). -/
theorem test_imageWellFormed :
    ({ defaultConfig with image := List.replicate 3584 0 } : Config).imageWellFormed = true ∧
      ({ defaultConfig with image := List.replicate 3585 0 } : Config).imageWellFormed = false := by
  simp only [Config.imageWellFormed, List.length_replicate]
  decide

/-! ### Decoding: every row of the opcode table, its word written out from its pattern (R84, R89) -/

theorem test_decode_family0 :
    decodeWord 0x00C7#16 = .ok (.scd 7) ∧ decodeWord 0x00E0#16 = .ok .cls ∧ decodeWord 0x00EE#16 = .ok .ret ∧
      decodeWord 0x00FB#16 = .ok .scr ∧ decodeWord 0x00FC#16 = .ok .scl ∧ decodeWord 0x00FD#16 = .ok .exit ∧
      decodeWord 0x00FE#16 = .ok .low ∧ decodeWord 0x00FF#16 = .ok .high ∧ decodeWord 0x0100#16 = .ok .sys100 ∧
      decodeWord 0x0101#16 = .ok .sys101 ∧ decodeWord 0x0102#16 = .ok .sys102 :=
  ⟨rfl, rfl, rfl, rfl, rfl, rfl, rfl, rfl, rfl, rfl, rfl⟩

theorem test_decode_families1to7 :
    decodeWord 0x1ABC#16 = .ok (.jp 0xABC) ∧ decodeWord 0x2300#16 = .ok (.call 0x300) ∧
      decodeWord 0x3A42#16 = .ok (.seImm 0xA 0x42) ∧ decodeWord 0x4A42#16 = .ok (.sneImm 0xA 0x42) ∧
      decodeWord 0x5120#16 = .ok (.seReg 1 2) ∧ decodeWord 0x6F7B#16 = .ok (.ldImm 0xF 0x7B) ∧
      decodeWord 0x7001#16 = .ok (.addImm 0 1) :=
  ⟨rfl, rfl, rfl, rfl, rfl, rfl, rfl⟩

theorem test_decode_family8 :
    decodeWord 0x8120#16 = .ok (.ldReg 1 2) ∧ decodeWord 0x8121#16 = .ok (.or 1 2) ∧
      decodeWord 0x8122#16 = .ok (.and 1 2) ∧ decodeWord 0x8123#16 = .ok (.xor 1 2) ∧
      decodeWord 0x8F14#16 = .ok (.addReg 0xF 1) ∧ decodeWord 0x8125#16 = .ok (.sub 1 2) ∧
      decodeWord 0x8126#16 = .ok (.shr 1 2) ∧ decodeWord 0x8127#16 = .ok (.subn 1 2) ∧
      decodeWord 0x812E#16 = .ok (.shl 1 2) :=
  ⟨rfl, rfl, rfl, rfl, rfl, rfl, rfl, rfl, rfl⟩

theorem test_decode_families9toE :
    decodeWord 0x9120#16 = .ok (.sneReg 1 2) ∧ decodeWord 0xAFFE#16 = .ok (.ldI 0xFFE) ∧
      decodeWord 0xB300#16 = .ok (.jpV0 0x300) ∧ decodeWord 0xC10F#16 = .ok (.rnd 1 0x0F) ∧
      decodeWord 0xDF15#16 = .ok (.drw 0xF 1 5) ∧ decodeWord 0xE59E#16 = .ok (.skp 5) ∧
      decodeWord 0xE5A1#16 = .ok (.sknp 5) :=
  ⟨rfl, rfl, rfl, rfl, rfl, rfl, rfl⟩

theorem test_decode_familyF :
    decodeWord 0xF107#16 = .ok (.ldVxDt 1) ∧ decodeWord 0xF20A#16 = .ok (.ldVxK 2) ∧
      decodeWord 0xF115#16 = .ok (.ldDtVx 1) ∧ decodeWord 0xF118#16 = .ok (.ldStVx 1) ∧
      decodeWord 0xF11E#16 = .ok (.addI 1) ∧ decodeWord 0xF129#16 = .ok (.ldF 1) ∧
      decodeWord 0xF133#16 = .ok (.ldB 1) ∧ decodeWord 0xF255#16 = .ok (.storeRegs 2) ∧
      decodeWord 0xF465#16 = .ok (.loadRegs 4) ∧ decodeWord 0xF030#16 = .ok (.unsupportedFx30 0) ∧
      decodeWord 0xF375#16 = .ok (.unsupportedFx75 3) ∧ decodeWord 0xF385#16 = .ok (.unsupportedFx85 3) :=
  ⟨rfl, rfl, rfl, rfl, rfl, rfl, rfl, rfl, rfl, rfl, rfl, rfl⟩

/-- Bytes decode high byte first (R64), one byte does not decode (R80), and a table word is read so. -/
theorem test_decode_bytes :
    decode [0x12, 0x04, 0xAA] = .ok (.jp 0x204, [0xAA]) ∧ decode [0x00] = .error .tooShort ∧
      decode [0x00, 0xF0] = .error (.invalid 0x00F0) ∧ decodeTableWord 16 0xD125 = some (.drw 1 2 5) ∧
      decodeTableWord 16 0x8128 = none :=
  ⟨rfl, rfl, rfl, rfl, rfl⟩

/-! ### One step on a small state -/

/-- No key down, no tick, random number 0: the inputs of the vectors unless they say otherwise. -/
def idle : Inputs := ⟨0, false, 0⟩

/-- The same with a tick. -/
def ticked : Inputs := ⟨0, true, 0⟩

/-- The reset state with its next inputs known. -/
def start (inp : Inputs) : State := { State.reset with inputs := [inp] }

/-- What `f` sees after a step that executes `op`. -/
def after {α : Type} (s : State) (op : Word) (f : State → α) : Option α :=
  match step (s.placeOpcode op) with
  | .next t => some (f t)
  | .fault _ => none
  | .refused _ => none

/-- T1, T2. -/
theorem test_jp : after (start idle) 0x1ABC (·.pc) = some 0xABC ∧ after (start idle) 0x1201 (·.pc) = some 0x201 := by
  decide

/-- T3. -/
theorem test_call : after (start idle) 0x2300 (fun t => (t.stack[0], t.sp, t.pc)) = some (0x202, 1, 0x300) := by decide

/-- T4. -/
theorem test_call_wraps :
    after { start idle with sp := 15 } 0x2300 (fun t => (t.stack[15], t.sp, t.pc)) = some (0x202, 0, 0x300) := by decide

/-- T5. -/
theorem test_ret :
    after (({ start idle with sp := 0 } : State).push 0x456) 0x00EE (fun t => (t.sp, t.pc)) = some (0, 0x456) := by decide

/-- T6. -/
theorem test_ret_wraps : after (start idle) 0x00EE (fun t => (t.sp, t.pc)) = some (15, 0) := by decide

/-- T7, T8. -/
theorem test_jpV0 :
    after ((start idle).setReg 0 0x10) 0xB300 (·.pc) = some 0x310 ∧
      after ((start idle).setReg 0 0xFF) 0xBFFF (·.pc) = some 0x10FE := by decide

/-- T9. -/
theorem test_exit :
    after (start ticked) 0x00FD (fun t => (t.status, t.pc, t.status.result, t.status.result.code)) =
      some (.exited, 0x200, .exit, 1) := by decide

/-- T10. -/
theorem test_sys100 :
    after ((start idle).setReg 0 0x3C) 0x0100 (fun t => (t.events, t.pc)) = some ([.setFrequency 60], 0x202) := by decide

/-- T11, T162. -/
theorem test_sys101 :
    after { start idle with v := Vector.replicate 16 9, i := 0x345, memory := [(0x300, 0xAA)], width := .w128, st := 3,
                            tone := true } 0x0101
      (fun t => ((t.reg 3, t.i, t.memRead 0x300), (t.width, t.pc), (t.st, t.tone, t.events))) =
      some ((0, 0, 0), (.w64, 0x200), (0, false, [.endTone, .loadProgram])) := by decide

/-- T12, T13, T117. -/
theorem test_invalid :
    after (start idle) 0x0000 (fun t => (t.status, t.pc)) = some (.invalid 0, 0x200) ∧
      after (start idle) 0x00F0 (·.status) = some (.invalid 0x00F0) ∧
      after (start idle) 0xF100 (·.status) = some (.invalid 0xF100) := by decide

/-- T118: the gate does not run. -/
theorem test_invalid_no_gate : after { start ticked with dt := 5 } 0x00F0 (·.dt) = some 5 := by decide

/-- T15: a fetch at 0xFFF takes its low byte from address 0, where the font has `F0`. -/
theorem test_fetch_wraps : ({ start idle with pc := 0xFFF, memory := [(0xFFF, 0x12)] } : State).fetch = 0x12F0 := by
  decide

/-- T16. -/
theorem test_pc_wraps : after { start idle with pc := 0xFFFE } 0x6001 (fun t => (t.reg 0, t.pc)) = some (1, 0) := by
  decide

/-- T20, T21. -/
theorem test_seImm :
    after ((start idle).setReg 10 0x42) 0x3A42 (·.pc) = some 0x204 ∧
      after ((start idle).setReg 10 0x43) 0x3A42 (·.pc) = some 0x202 := by decide

/-- T22, T23. -/
theorem test_sneImm :
    after ((start idle).setReg 10 0x42) 0x4A42 (·.pc) = some 0x202 ∧
      after ((start idle).setReg 10 0x43) 0x4A42 (·.pc) = some 0x204 := by decide

/-- T24, T25. -/
theorem test_seReg :
    after (((start idle).setReg 1 7).setReg 2 7) 0x5120 (·.pc) = some 0x204 ∧
      after (((start idle).setReg 1 7).setReg 2 8) 0x5120 (·.pc) = some 0x202 := by decide

/-- T28, T29. -/
theorem test_sneReg :
    after (((start idle).setReg 1 7).setReg 2 8) 0x9120 (·.pc) = some 0x204 ∧
      after (((start idle).setReg 1 7).setReg 2 7) 0x9120 (·.pc) = some 0x202 := by decide

/-- T31, T33. -/
theorem test_skp :
    after ((start ⟨0x0020, false, 0⟩).setReg 0 5) 0xE09E (·.pc) = some 0x204 ∧
      after ((start ⟨0x0020, false, 0⟩).setReg 0 0x15) 0xE09E (·.pc) = some 0x204 := by decide

/-- T32. -/
theorem test_skp_not_down : after ((start ⟨0xFFDF, false, 0⟩).setReg 0 5) 0xE09E (·.pc) = some 0x202 := by decide

/-- T34, T35. -/
theorem test_sknp :
    after ((start ⟨0x0020, false, 0⟩).setReg 0 5) 0xE0A1 (·.pc) = some 0x202 ∧
      after ((start idle).setReg 0 5) 0xE0A1 (·.pc) = some 0x204 := by decide

/-- T40. -/
theorem test_ldImm : after (start idle) 0x6F7B (·.reg 15) = some 0x7B := by decide

/-- T41. -/
theorem test_addImm : after ((start idle).setReg 0 0xFF) 0x7001 (fun t => (t.reg 0, t.reg 15)) = some (0, 0) := by decide

/-- T42. -/
theorem test_ldReg : after ((start idle).setReg 2 0x5A) 0x8120 (·.reg 1) = some 0x5A := by decide

/-- The start of T43 to T62: `V1`, `V2` and `VF`. -/
def with12f (a b f : Byte) : State := (((start idle).setReg 1 a).setReg 2 b).setReg 15 f

/-- `V1` and `VF`. -/
def see1f (t : State) : Byte × Byte := (t.reg 1, t.reg 15)

/-- T43. -/
theorem test_or : after (with12f 0xF0 0x0F 1) 0x8121 see1f = some (0xFF, 1) := by decide

/-- T44. -/
theorem test_and : after (with12f 0xF3 0x3F 1) 0x8122 see1f = some (0x33, 1) := by decide

/-- T45. -/
theorem test_xor : after (with12f 0xFF 0x0F 1) 0x8123 see1f = some (0xF0, 1) := by decide

/-- T47, T48 (S3). -/
theorem test_addReg :
    after (with12f 0xFF 0x01 0) 0x8124 see1f = some (0, 1) ∧ after (with12f 0x01 0x01 1) 0x8124 see1f = some (2, 0) := by
  decide

/-- T52, T54: the flag is written last, and read first. -/
theorem test_addReg_vf :
    after (with12f 0x02 0 0xFF) 0x8F14 (·.reg 15) = some 1 ∧ after (with12f 0x10 0 1) 0x81F4 see1f = some (0x11, 0) := by
  decide

/-- T55, T56 (S4). -/
theorem test_sub :
    after (with12f 5 3 0) 0x8125 see1f = some (2, 1) ∧ after (with12f 3 5 1) 0x8125 see1f = some (0xFE, 0) := by decide

/-- T57: equality is no borrow. -/
theorem test_sub_equal : after (with12f 7 7 0) 0x8125 see1f = some (0, 1) := by decide

/-- T59, T60. -/
theorem test_subn :
    after (with12f 3 5 0) 0x8127 see1f = some (2, 1) ∧ after (with12f 5 3 1) 0x8127 see1f = some (0xFE, 0) := by decide

/-- A session whose shifts read `V[y]`. -/
def shiftY (s : State) : State := { s with config := { s.config with shiftSrc := .vy } }

/-- T62, under both values of `SHIFT_SRC`. -/
theorem test_shr :
    after (with12f 0x05 0xF0 0) 0x8126 see1f = some (0x02, 1) ∧
      after (shiftY (with12f 0x05 0xF0 1)) 0x8126 see1f = some (0x78, 0) := by decide

/-- T68. -/
theorem test_shr_vf : after ((start idle).setReg 15 3) 0x8F06 (·.reg 15) = some 1 := by decide

/-- T65, under both values of `SHIFT_SRC`. -/
theorem test_shl :
    after (with12f 0x81 0x01 0) 0x812E see1f = some (0x02, 1) ∧
      after (shiftY (with12f 0x81 0x01 1)) 0x812E see1f = some (0x02, 0) := by decide

/-- T71, T72. -/
theorem test_rnd :
    after (start ⟨0, false, 0xA7⟩) 0xC10F (·.reg 1) = some 7 ∧
      after (start ⟨0, false, 0xFE⟩) 0xC1FF (·.reg 1) = some 0xFE := by decide

/-- T80. -/
theorem test_ldI : after (start idle) 0xAFFF (·.i) = some 0xFFF := by decide

/-- T81, T82. -/
theorem test_addI :
    after (({ start idle with i := 0xFFE } : State).setReg 1 4) 0xF11E (fun t => (t.i, t.reg 15)) = some (0x1002, 0) ∧
      after (({ start idle with i := 0xFFFF } : State).setReg 1 1) 0xF11E (·.i) = some 0 := by decide

/-- T83, T84. -/
theorem test_ldF :
    after ((start idle).setReg 1 0xA) 0xF129 (·.i) = some 0x32 ∧
      after ((start idle).setReg 1 0xF) 0xF129 (·.i) = some 0x4B := by decide

/-- Three bytes of memory. -/
def see3 (a b c : Nat) (t : State) : Byte × Byte × Byte := (t.memRead a, t.memRead b, t.memRead c)

/-- T85. -/
theorem test_ldB :
    after (({ start idle with i := 0x300 } : State).setReg 1 254) 0xF133 (see3 0x300 0x301 0x302) = some (2, 5, 4) := by
  decide

/-- T90: each address is masked by itself, over the font. -/
theorem test_ldB_wraps :
    after (({ start idle with i := 0xFFF } : State).setReg 1 123) 0xF133 (see3 0xFFF 0 1) = some (1, 2, 3) := by decide

/-- T91. -/
theorem test_storeRegs :
    after (((({ start idle with i := 0x400 } : State).setReg 0 0x11).setReg 1 0x22).setReg 2 0x33) 0xF255
      (fun t => (see3 0x400 0x401 0x402 t, t.memRead 0x403, t.i)) = some ((0x11, 0x22, 0x33), 0, 0x400) := by decide

/-- T92: the address is masked. -/
theorem test_storeRegs_masks :
    after (({ start idle with i := 0x1400 } : State).setReg 0 0x77) 0xF055 (fun t => (t.memRead 0x400, t.i)) =
      some (0x77, 0x1400) := by decide

/-- T93. -/
theorem test_loadRegs :
    after (({ start idle with i := 0x400, memory := [(0x400, 0x11), (0x401, 0x22), (0x402, 0x33), (0x403, 0x44)] }
        : State).setReg 3 9) 0xF265 (fun t => ((t.reg 0, t.reg 1), (t.reg 2, t.reg 3), t.i)) =
      some ((0x11, 0x22), (0x33, 9), 0x400) := by decide

/-- T94 (S1): the addresses wrap into the font. -/
theorem test_loadRegs_wraps :
    after { start idle with i := 0xFFE } 0xF465 (fun t => ((t.reg 0, t.reg 1), (t.reg 2, t.reg 3), t.reg 4)) =
      some ((0, 0), (0xF0, 0x90), 0x90) := by decide

/-- T100, T101: the timer is read before the gate. -/
theorem test_ldVxDt :
    after { start idle with dt := 0x2A } 0xF107 (fun t => (t.reg 1, t.dt)) = some (0x2A, 0x2A) ∧
      after { start ticked with dt := 0x2A } 0xF107 (fun t => (t.reg 1, t.dt)) = some (0x2A, 0x29) := by decide

/-- T102, T103. -/
theorem test_ldDtVx :
    after ((start idle).setReg 1 3) 0xF115 (·.dt) = some 3 ∧ after ((start ticked).setReg 1 3) 0xF115 (·.dt) = some 2 := by
  decide

/-- Sound timer, tone and events. -/
def seeTone (t : State) : Byte × Bool × List Event := (t.st, t.tone, t.events)

/-- T104, T107. -/
theorem test_ldStVx :
    after ((start idle).setReg 1 5) 0xF118 seeTone = some (5, true, [.beginTone]) ∧
      after ((start ticked).setReg 1 1) 0xF118 seeTone = some (0, false, [.beginTone, .endTone]) := by decide

/-- T105, T106. -/
theorem test_ldStVx_running :
    after (({ start idle with st := 4, tone := true } : State).setReg 1 9) 0xF118 seeTone = some (9, true, []) ∧
      after ({ start idle with st := 4, tone := true } : State) 0xF118 seeTone = some (0, false, [.endTone]) := by decide

/-- T108, T110. -/
theorem test_gate :
    after { start ticked with dt := 1, st := 1, tone := true } 0x6000 (fun t => (t.dt, seeTone t)) =
        some (0, 0, false, [.endTone]) ∧
      after { start ticked with dt := 7, st := 2, tone := true } 0x6000 (fun t => (t.dt, seeTone t)) =
        some (6, 1, true, []) := by decide

/-- T109: the floor at 0. -/
theorem test_gate_floor : after (start ticked) 0x6000 (fun t => (t.dt, seeTone t)) = some (0, 0, false, []) := by decide

/-- T111: the wait; the gate runs. -/
theorem test_ldVxK_waits :
    after { start ticked with dt := 2 } 0xF20A (fun t => (t.pc, t.reg 2, t.dt, t.status)) = some (0x200, 0, 1, .running) := by
  decide

/-- T112, T113 (S7). -/
theorem test_ldVxK :
    after (start ⟨0x0090, false, 0⟩) 0xF20A (fun t => (t.reg 2, t.pc)) = some (4, 0x202) ∧
      after (start ⟨0x8000, false, 0⟩) 0xF20A (·.reg 2) = some 15 := by decide

/-- T115, T116 (S8). -/
theorem test_unsupported :
    after (start idle) 0xF030 (fun t => (t.status, t.pc)) = some (.unsupported, 0x200) ∧
      after (start idle) 0xF375 (·.status) = some .unsupported ∧
      after (start idle) 0xF385 (·.status) = some .unsupported := by decide

/-! ### Display: the listed cells are the cells that are not 0 -/

/-- A start for a draw: the sprite at 0x300, the coordinates, the width and the plane. -/
def canvas (sprite : List Byte) (x y : Byte) (w : Width) (p : Cells) : State :=
  ((({ start idle with i := 0x300, width := w, plane := p, dirty := false } : State).setReg 0 x).setReg 1 y).memStore
    0x300 sprite

/-- The plane, `VF` and the dirty flag. -/
def seePlane (t : State) : Cells × Byte × Bool := (t.plane, t.reg 15, t.dirty)

/-- T132: bit 7 is the leftmost pixel. -/
theorem test_drw :
    after (canvas [0x81] 0 0 .w64 []) 0xD011 seePlane = some ([(0, 1), (7, 1)], 0, true) := by decide

/-- T133: one overlap is enough; the 0 bits leave cells alone. -/
theorem test_drw_collides :
    after (canvas [0xF0] 0 0 .w64 [(2, 1)]) 0xD011 seePlane = some ([(0, 1), (1, 1), (3, 1)], 1, true) := by decide

/-- T134: clipped on the right and at the bottom, not wrapped. -/
theorem test_drw_clips :
    after (canvas [0xFF, 0xFF, 0xFF] 60 30 .w64 []) 0xD013 seePlane =
      some ([(1980, 1), (1981, 1), (1982, 1), (1983, 1), (2044, 1), (2045, 1), (2046, 1), (2047, 1)], 0, true) := by
  decide

/-- T138: `Dxy0` draws no row in 64-wide mode. -/
theorem test_drw_no_rows : after (canvas [0xFF] 0 0 .w64 []) 0xD010 seePlane = some ([], 0, true) := by decide

/-- T139, its first two rows: a row of the 16x16 sprite is two bytes. -/
theorem test_drw_big :
    after (canvas [0x80, 0x01, 0x80, 0x01] 0 0 .w128 []) 0xD010 seePlane =
      some ([(0, 1), (15, 1), (128, 1), (143, 1)], 0, true) := by decide

/-- T140: the glyph of 0 at (5, 3), from the default font. -/
theorem test_drw_glyph :
    after ({ canvas [] 5 3 .w64 [] with i := 0 } : State) 0xD015 (·.plane.map (·.1)) =
      some [197, 198, 199, 200, 261, 264, 325, 328, 389, 392, 453, 454, 455, 456] := by decide

/-- T141: the coordinate is read before the flag is written. -/
theorem test_drw_vf : after ((canvas [0x80] 0 0 .w64 []).setReg 15 3) 0xDF11 seePlane = some ([(3, 1)], 0, true) := by
  decide

/-- T151: `XOR` toggles bit 0 of a cell that holds 2. -/
theorem test_drw_xor :
    after ((({ canvas [0xC0] 0 0 .w64 [(0, 2), (1, 2)] with fg := 7, bg := 2 } : State)).withDrawMode .xor) 0xD011
      seePlane = some ([(0, 3), (1, 3)], 0, true) := by decide

/-- T142. -/
theorem test_cls :
    after (canvas [] 0 0 .w64 [(5, 1), (70, 1)]) 0x00E0 seePlane = some ([], 0, true) := by decide

/-- T143. -/
theorem test_scd : after (canvas [] 0 0 .w64 [(323, 1), (1923, 1)]) 0x00C4 seePlane = some ([(579, 1)], 0, true) := by
  decide +kernel

/-- T145. -/
theorem test_scr : after (canvas [] 0 0 .w64 [(1, 1), (62, 1)]) 0x00FB seePlane = some ([(5, 1)], 0, true) := by
  decide +kernel

/-- T146. -/
theorem test_scl : after (canvas [] 0 0 .w64 [(2, 1), (10, 1)]) 0x00FC seePlane = some ([(6, 1)], 0, true) := by
  decide +kernel

/-- T147. -/
theorem test_high :
    after (canvas [] 0 0 .w64 [(65, 1)]) 0x00FF (fun t => ((t.width, t.events), seePlane t)) =
      some ((.w128, [.resize .w128]), ([], 0, true)) := by decide

/-- T148. -/
theorem test_low :
    after (canvas [] 0 0 .w64 [(65, 1)]) 0x00FE (fun t => ((t.width, t.events), seePlane t)) =
      some ((.w64, [.resize .w64]), ([], 0, true)) := by decide

/-- T149. -/
theorem test_sys102 :
    after (canvas [] 7 2 .w64 [(65, 1)]) 0x0102 (fun t => ((t.fg, t.bg), seePlane t)) =
      some ((7, 2), ([(65, 1)], 0, false)) := by decide

/-! ### Reset and refresh -/

/-- T160: the image, the font and zeros. -/
theorem test_hostReset :
    (fun t : State => ((t.fetch, t.memRead 0x202), (t.memRead 0, t.memRead 79), t.memRead 80))
      ((start idle).hostReset [0x12, 0x00]) = ((0x1200, 0), (0xF0, 0x80), 0) := by decide

/-- T161: the empty image. -/
theorem test_reset_then_step :
    (match step (start idle) with | .next t => some t.status | .fault _ => none | .refused _ => none) =
      some (.invalid 0) := by decide

/-- T163. -/
theorem test_refresh :
    (start idle).refresh.dirty = false ∧ (start idle).refresh.events ≠ [] ∧ (start idle).refresh.refresh.events = [] := by
  refine ⟨rfl, ?_, rfl⟩
  exact List.cons_ne_nil _ _

/-! ### Witnesses: for each statement with hypotheses, states and operands that meet them -/

/-- The state after `exec`. -/
def ran (i : Instr) (s : State) : State :=
  match exec i s with
  | .next t => t
  | .fault _ => s
  | .refused _ => s

/-- The state after `step`. -/
def stepped (s : State) : State :=
  match step s with
  | .next t => t
  | .fault _ => s
  | .refused _ => s

/-- A running start whose next opcode is `op`. -/
def ready (inp : Inputs) (op : Word) : State := (start inp).placeOpcode op

/-- One instruction of each constructor. -/
def oneOfEach : List Instr :=
  [.scd 15, .cls, .ret, .scr, .scl, .exit, .low, .high, .sys100, .sys101, .sys102, .jp 0xFFF] ++
    [.call 0xFFF, .seImm 15 255, .sneImm 15 255, .seReg 0 15, .ldImm 14 255, .addImm 14 255, .ldReg 14 15, .or 14 15] ++
    [.and 14 15, .xor 14 15, .addReg 15 15, .sub 15 15, .shr 15 15, .subn 15 15, .shl 15 15, .sneReg 0 15] ++
    [.ldI 0xFFF, .jpV0 0xFFF, .rnd 14 255, .drw 15 15 15, .skp 15, .sknp 15, .ldVxDt 14, .ldVxK 14, .ldDtVx 15] ++
    [.ldStVx 15, .addI 15, .ldF 15, .ldB 15, .storeRegs 15, .loadRegs 14, .unsupportedFx30 15, .unsupportedFx75 15] ++
    [.unsupportedFx85 15]

/-- `exec` answers a next state. -/
def completes (i : Instr) (s : State) : Bool :=
  match exec i s with
  | .next _ => true
  | .fault _ => false
  | .refused _ => false

/-- For the statements over every instruction: `EveryNextPcIsListed` and `FlagIsWrittenByItsSixInstructionsOnly`, each
clause; `Only…`, all but the excepted ones. -/
theorem witness_every_instruction : oneOfEach.length = 46 ∧ oneOfEach.all (completes · (start idle)) = true := by decide

theorem witness_OnlyInstructionsThatChange :
    exec .ret (start idle) = .next (ran .ret (start idle)) ∧ Instr.ret ≠ .sys101 ∧ (∀ nnn, Instr.ret ≠ .call nnn) ∧
      (∀ nnn, Instr.ret ≠ .ldI nnn) ∧ (∀ x, Instr.ret ≠ .addI x) ∧ (∀ x, Instr.ret ≠ .ldF x) ∧
      (∀ x, Instr.ret ≠ .ldB x) ∧ (∀ x, Instr.ret ≠ .storeRegs x) :=
  ⟨rfl, by decide, nofun, nofun, nofun, nofun, nofun, nofun⟩

theorem witness_OnlyCallReturnAndResetMoveTheStack :
    exec (.storeRegs 15) (start idle) = .next (ran (.storeRegs 15) (start idle)) ∧
      Instr.storeRegs 15 ≠ .sys101 ∧ (∀ nnn, Instr.storeRegs 15 ≠ .call nnn) ∧ Instr.storeRegs 15 ≠ .ret :=
  ⟨rfl, nofun, nofun, nofun⟩

theorem witness_OnlyDisplayInstructionsChangeThePicture :
    exec (.jp 0xFFF) (start idle) = .next (ran (.jp 0xFFF) (start idle)) ∧ Instr.jp 0xFFF ≠ .sys101 ∧
      Instr.jp 0xFFF ≠ .sys102 ∧ Instr.jp 0xFFF ≠ .cls ∧ Instr.jp 0xFFF ≠ .scr ∧ Instr.jp 0xFFF ≠ .scl ∧
      Instr.jp 0xFFF ≠ .low ∧ Instr.jp 0xFFF ≠ .high ∧ (∀ n, Instr.jp 0xFFF ≠ .scd n) ∧
      (∀ x y n, Instr.jp 0xFFF ≠ .drw x y n) ∧ (start idle).dirty = true :=
  ⟨rfl, nofun, nofun, nofun, nofun, nofun, nofun, nofun, nofun, nofun, rfl⟩

theorem witness_EncodeOfDecodeIsTheOpcode : decodeWord 0xFF85#16 = .ok (.unsupportedFx85 15) := rfl

/-- Both clauses, at the edges of a row. -/
theorem witness_DecoderAcceptsExactlyTheOpcodeTable :
    opcodeWellFormed 0x00BF#16 = false ∧ opcodeWellFormed 0x00C0#16 = true ∧ opcodeWellFormed 0x00CF#16 = true ∧
      opcodeWellFormed 0x00D0#16 = false ∧ opcodeWellFormed 0xFFFF#16 = false := by decide

theorem witness_OpcodeTableRowsAreDisjoint :
    ⟨"JP_nnn", 0x1000#16, 0xF000#16⟩ ∈ opcodeTable ∧
      OpcodeRow.accepts ⟨"JP_nnn", 0x1000#16, 0xF000#16⟩ 0x1FFF#16 = true := by decide

/-- Both clauses: an instruction that goes on, and one that raises. -/
theorem witness_StepRunsTheDecodedInstruction :
    ((ready ticked 0x7F01).status = .running ∧ decodeWord (ready ticked 0x7F01).fetch = .ok (.addImm 15 1) ∧
        ∃ t, exec (.addImm 15 1) { ready ticked 0x7F01 with events := [] } = .next t ∧ t.status = .running) ∧
      ((ready ticked 0x00FD).status = .running ∧ decodeWord (ready ticked 0x00FD).fetch = .ok .exit ∧
        ∃ t, exec .exit { ready ticked 0x00FD with events := [] } = .next t ∧ t.status ≠ .running) :=
  ⟨⟨rfl, rfl, _, rfl, rfl⟩, rfl, rfl, _, rfl, by decide⟩

theorem witness_HaltedCoreStaysHalted :
    ({ start idle with status := .invalid 0xFFFF } : State).status ≠ .running := by decide

/-- Each of the three conditions is raised by a step. -/
theorem witness_RaisingStepChangesOnlyStatus :
    ((ready ticked 0x00FD).status = .running ∧ step (ready ticked 0x00FD) = .next (stepped (ready ticked 0x00FD)) ∧
        (stepped (ready ticked 0x00FD)).status = .exited) ∧
      (step (ready ticked 0xFF30) = .next (stepped (ready ticked 0xFF30)) ∧
        (stepped (ready ticked 0xFF30)).status = .unsupported) ∧
      (step (ready ticked 0xFFFF) = .next (stepped (ready ticked 0xFFFF)) ∧
        (stepped (ready ticked 0xFFFF)).status = .invalid 0xFFFF) :=
  ⟨⟨rfl, rfl, by decide⟩, ⟨rfl, by decide⟩, rfl, by decide⟩

/-- Both clauses. -/
theorem witness_InvalidRaisedExactlyForUnlistedOpcodes :
    (ready idle 0x0103).status = .running ∧ opcodeWellFormed (ready idle 0x0103).fetch = false ∧
      (stepped (ready idle 0x0103)).status = .invalid 0x0103 := by decide

/-- The three encodings at both ends of `x`, and a neighbour. -/
theorem witness_UnsupportedRaisedExactlyForThreeEncodings :
    (stepped (ready idle 0xF030)).status = .unsupported ∧ (stepped (ready idle 0xFF75)).status = .unsupported ∧
      (stepped (ready idle 0xFF85)).status = .unsupported ∧ (stepped (ready idle 0xFF86)).status = .invalid 0xFF86 := by
  decide

theorem witness_ExitIsTheOnlyGoodEnd :
    (ready idle 0x00FD).status = .running ∧ (stepped (ready idle 0x00FD)).goodEnd ∧
      (stepped (ready idle 0xF030)).faulted = true ∧ (stepped (ready idle 0x0000)).faulted = true := by decide

/-- Each clause: no tick; a tick with `ST` = 1; a tick with `ST` = 0. -/
theorem witness_TimerGateEndsEveryCompletedStep :
    ((ready idle 0x6001).status = .running ∧ decodeWord (ready idle 0x6001).fetch = .ok (.ldImm 0 1) ∧
        ∃ u, exec (.ldImm 0 1) { ready idle 0x6001 with events := [] } = .next u ∧ u.status = .running ∧
          u.input.tick = false) ∧
      (∃ u, exec (.ldImm 0 1) { ready ticked 0x6001 with events := [], st := 1, tone := true } = .next u ∧
        u.status = .running ∧ u.input.tick = true ∧ u.st = 1) ∧
      (∃ u, exec (.ldImm 0 1) { ready ticked 0x6001 with events := [] } = .next u ∧ u.status = .running ∧
        u.input.tick = true ∧ u.st ≠ 1) :=
  ⟨⟨rfl, rfl, _, rfl, rfl, rfl⟩, ⟨_, rfl, rfl, rfl, rfl⟩, _, rfl, rfl, rfl, by decide⟩

theorem witness_StepKeepsTheInvariant :
    (start ticked).Inv ∧ step (start ticked) = .next (stepped (start ticked)) ∧
      ({ start ticked with st := 255, tone := true, memory := [(4095, 1)], plane := [(2047, 1)] } : State).Inv :=
  ⟨⟨rfl, rfl, by decide⟩, rfl, by decide, by decide, by decide⟩

/-- Each of the three actions. -/
theorem witness_HostActionsKeepTheInvariant :
    (start idle).Inv ∧ (∃ t, act (.step ticked) (start idle) = .next t) ∧ (∃ t, act .refresh (start idle) = .next t) ∧
      ∃ t, act (.reset [0xFF]) (start idle) = .next t :=
  ⟨⟨rfl, rfl, by decide⟩, ⟨_, rfl⟩, ⟨_, rfl⟩, _, rfl⟩

/-- A timer at 1 goes to 0 on a tick, and a sounding tone stops. -/
theorem witness_TimersOnlyCountDown :
    step { ready ticked 0x6001 with dt := 1, st := 1, tone := true } =
        .next (stepped { ready ticked 0x6001 with dt := 1, st := 1, tone := true }) ∧
      (ready ticked 0x6001).fetch &&& 0xF0FF#16 ≠ 0xF015#16 ∧ (ready ticked 0x6001).fetch &&& 0xF0FF#16 ≠ 0xF018#16 ∧
      (ready ticked 0x6001).fetch ≠ 0x0101#16 :=
  ⟨rfl, by decide, by decide, by decide⟩

/-- The reset state, its inputs known, is monochrome. -/
theorem monochrome_start (inp : Inputs) (op : Word) : (ready inp op).Monochrome :=
  ⟨rfl, rfl, fun _ _ hx hy => .inl (Plane.get_fill (w := resetWidth) resetBg hx hy)⟩

theorem witness_DrawModesAgreeUnderResetColours :
    Plane.wf (ready idle 0xD01F).width (ready idle 0xD01F).plane = true ∧ (ready idle 0xD01F).Monochrome ∧
      Plane.wf (ready idle 0x0102).width (ready idle 0x0102).plane = true ∧ (ready idle 0x0102).Monochrome :=
  ⟨rfl, monochrome_start _ _, rfl, monochrome_start _ _⟩

theorem witness_ResetColoursLastUntilSys102 :
    (ready idle 0xD01F).Inv ∧ (ready idle 0xD01F).Monochrome ∧ (ready idle 0xD01F).fetch ≠ 0x0102#16 ∧
      ∃ t, step (ready idle 0xD01F) = .next t :=
  ⟨⟨by decide, rfl, by decide⟩, monochrome_start _ _, by decide, _, rfl⟩

/-- The hypothesis `x ≠ 15` of the statements about `8xy4`, `8xy5`, `8xy6`, `8xy7`, `8xyE`; a draw, with `x`, `y` too. -/
theorem witness_destination_is_not_vf : (14 : Reg) ≠ 15 ∧ (0 : Reg) ≠ 15 := by decide

theorem witness_ShiftsWriteResultThenShiftedOutBit :
    ((start idle).config.shiftSrc = .vx ∧ (255 : Byte) = ((start idle).setReg 0 255).reg 0) ∧
      ((shiftY (start idle)).config.shiftSrc = .vy ∧ (255 : Byte) = ((shiftY (start idle)).setReg 15 255).reg 15) := by
  decide

theorem witness_SkipsCompareRegisters :
    (start idle).reg 15 = 0 ∧ (start idle).reg 15 ≠ 255 ∧ (start idle).reg 0 = (start idle).reg 15 ∧
      ((start idle).setReg 15 255).reg 0 ≠ ((start idle).setReg 15 255).reg 15 := by decide

/-- Both clauses, at key 0 and at key 15 by a register above 15. -/
theorem witness_SkipsTestTheKeyLevel :
    (start ⟨0x8000, false, 0⟩).input.keys.getLsbD ((start ⟨0x8000, false, 0⟩).reg 0).toNat = false ∧
      ((start ⟨0x8000, false, 0⟩).setReg 0 255).input.keys.getLsbD
        ((((start ⟨0x8000, false, 0⟩).setReg 0 255).reg 0).toNat % 16) = true := by decide

/-- The slot a return reads: slot 15 from `SP` = 0, slot 14 from `SP` = 15. -/
theorem witness_ReturnPopsTheStackAndResumes :
    (15 : Fin 16).val = ((start idle).sp.toNat + 15) % 16 ∧
      (14 : Fin 16).val = (({ start idle with sp := 15 } : State).sp.toNat + 15) % 16 := by decide

/-- For the statements with a canonical memory: `BcdStoresThreeDigits`, `BlockStoreWritesRegistersUpToX` (with `r` = `x`)
and `MemoryWriteSetsOneByte`, at the last address. -/
theorem witness_canonical_memory :
    Memory.wf (start idle).config (start idle).memory = true ∧
      Memory.wf (start idle).config ((start idle).memStore 4095 [1]).memory = true ∧ (15 : Reg) ≤ 15 ∧
      (∀ k < 3, maskAddr 2 ≠ maskAddr (0xFFFF + k)) ∧ (∀ k < 16, maskAddr 15 ≠ maskAddr (0xFFFF + k)) := by decide

/-- Both clauses: registers up to `x`, and above it. -/
theorem witness_BlockLoadReadsRegistersUpToX : (14 : Reg) ≤ 14 ∧ (14 : Reg) < 15 := by decide

/-- Each clause: the tone starts, stops, goes on (`ST` stays not 0), stays off (`ST` stays 0). -/
theorem witness_SoundTimerWriteDrivesTheTone :
    ((start idle).st = 0 ∧ ((start idle).setReg 0 1).reg 0 ≠ 0) ∧
      (({ start idle with st := 255, tone := true } : State).st ≠ 0 ∧
        ({ start idle with st := 255, tone := true } : State).reg 0 = 0) ∧
      ((start idle).st = 0 ↔ (start idle).reg 0 = 0) ∧
      (({ start idle with st := 1 } : State).st = 0 ↔ ((start idle).setReg 0 255).reg 0 = 0) := by decide

/-- Each clause: no key; key 0; key 15 alone. -/
theorem witness_KeyWaitTakesTheLeastKey :
    (∀ k < 16, (start idle).input.keys.getLsbD k = false) ∧ (start ⟨0x8001, false, 0⟩).input.keys.getLsbD 0 = true ∧
      (start ⟨0x8000, false, 0⟩).input.keys.getLsbD 15 = true ∧
      (∀ j < 15, (start ⟨0x8000, false, 0⟩).input.keys.getLsbD j = false) := by decide

/-- The corners of the plane, in both widths: `ClearFillsWithTheBackground`, `ScrollsMoveEveryCell`,
`WidthModesResizeAndClear`, `RefreshShowsADirtyPlane` (dirty, and not). -/
theorem witness_on_plane :
    (OnPlane (start idle) 0 0 ∧ OnPlane (start idle) 63 31 ∧ ¬OnPlane (start idle) 64 0 ∧ ¬OnPlane (start idle) 0 32) ∧
      (OnPlane { start idle with width := .w128 } 127 63 ∧ ¬OnPlane { start idle with width := .w128 } 128 0) ∧
      (start idle).dirty = true ∧ (start idle).refresh.dirty = false := by
  unfold OnPlane
  decide

/-- A 16x16 sprite, its first and last pixel lit, for the last corner of the 128-wide plane in `XOR` mode. -/
def bigCanvas : State :=
  (canvas ([0x80] ++ List.replicate 30 0 ++ [0x01]) 112 48 .w128 [(8191, 3)]).withDrawMode .xor

/-- Each clause in `OVERWRITE` mode: a lit pixel on a lit cell and on a cell that is not lit; a pixel that is not lit. -/
theorem witness_DrawPlotsEachLitPixelOnce :
    Plane.wf .w64 (canvas [0xC0] 0 0 .w64 [(0, 1)]).plane = true ∧
      (canvas [0xC0] 0 0 .w64 [(0, 1)]).config.drawMode = .overwrite ∧
      SpriteLights (canvas [0xC0] 0 0 .w64 [(0, 1)]) 0 1 1 0 0 ∧ CellIsLit (canvas [0xC0] 0 0 .w64 [(0, 1)]) 0 0 ∧
      SpriteLights (canvas [0xC0] 0 0 .w64 [(0, 1)]) 0 1 1 1 0 ∧ ¬CellIsLit (canvas [0xC0] 0 0 .w64 [(0, 1)]) 1 0 ∧
      ¬SpriteLights (canvas [0xC0] 0 0 .w64 [(0, 1)]) 0 1 1 63 31 := by
  refine ⟨by decide, rfl, ⟨0, 0, rfl, rfl, .inr (.inr (by simp [BigSprite]; decide))⟩,
    by change State.cell _ _ _ = State.fg _; decide, ⟨0, 1, rfl, rfl, .inr (.inr (by simp [BigSprite]; decide))⟩,
    by change ¬State.cell _ _ _ = State.fg _; decide, ?_⟩
  rintro ⟨r, c, -, hy, ⟨⟨h, -⟩, -⟩ | ⟨⟨h, -⟩, -⟩ | ⟨-, h, -⟩⟩
  · exact absurd h (by decide)
  · exact absurd h (by decide)
  · have h1 : r < 1 := h
    have h2 : 31 = 0 + r := hy
    omega

/-- `XOR` mode and a 16x16 sprite: its last pixel, bit 0 of the right byte of row 15, on a lit cell at the last column
and row of the 128-wide plane, and its first pixel on a cell that is not lit. -/
theorem witness_DrawPlotsEachLitPixelOnce_big :
    Plane.wf .w128 bigCanvas.plane = true ∧ bigCanvas.config.drawMode = .xor ∧ BigSprite bigCanvas 0 ∧
      OnPlane bigCanvas 127 63 ∧ SpriteLights bigCanvas 0 1 0 127 63 ∧ CellIsLit bigCanvas 127 63 ∧
      OnPlane bigCanvas 112 48 ∧ SpriteLights bigCanvas 0 1 0 112 48 ∧ ¬CellIsLit bigCanvas 112 48 :=
  ⟨by decide, rfl, ⟨rfl, rfl⟩, by unfold OnPlane; decide,
    ⟨15, 15, rfl, rfl, .inr (.inl ⟨⟨rfl, rfl⟩, by decide, by decide, by decide, by decide⟩)⟩,
    by change (State.cell _ _ _).getLsbD 0 = true; decide, by unfold OnPlane; decide,
    ⟨0, 0, rfl, rfl, .inl ⟨⟨rfl, rfl⟩, by decide, by decide, by decide⟩⟩,
    by change ¬(State.cell _ _ _).getLsbD 0 = true; decide⟩

/-- The first draw lights a cell in `XOR` mode. -/
theorem witness_XorDrawTwiceRestoresThePicture :
    Plane.wf .w64 ((canvas [0x80] 0 0 .w64 []).withDrawMode .xor).plane = true ∧
      ((canvas [0x80] 0 0 .w64 []).withDrawMode .xor).config.drawMode = .xor ∧ (0 : Reg) ≠ 15 ∧ (1 : Reg) ≠ 15 ∧
      OnPlane ((canvas [0x80] 0 0 .w64 []).withDrawMode .xor) 0 0 ∧
      SpriteLights ((canvas [0x80] 0 0 .w64 []).withDrawMode .xor) 0 1 1 0 0 ∧
      ¬CellIsLit ((canvas [0x80] 0 0 .w64 []).withDrawMode .xor) 0 0 :=
  ⟨by decide, rfl, by decide, by decide, by unfold OnPlane; decide,
    ⟨0, 0, rfl, rfl, .inr (.inr (by simp [BigSprite]; decide))⟩,
    by change ¬(State.cell _ _ _).getLsbD 0 = true; decide⟩

end Sys2Proof.Tests
end

section
/-!
Main memory: what a read returns after a write of one byte (spec/20_memory.md R62).
-/

namespace Sys2Proof.Machine

/-- The store of a one-byte list is a single `MemWrite`: the masked address reads the byte, every other address reads as
before (R61, R62). -/
theorem State.memRead_memStore_singleton {s : State} (h : Memory.wf s.config s.memory = true) (a : Nat) (b : Byte)
    (a' : Nat) :
    (s.memStore a [b]).memRead a' = if maskAddr a' = maskAddr a then b else s.memRead a' :=
  Memory.read_write h a b a'

/-- A store is an update of the memory field alone (R62). -/
theorem State.memStore_eq_with_memory (s : State) (a : Nat) (bs : List Byte) :
    s.memStore a bs = { s with memory := (s.memStore a bs).memory } := rfl

/-- Settles O48: the read masks its address, a one-byte store is read back at that address alone, and a store updates no
field but memory. -/
theorem memoryWriteSetsOneByte : Obligations.MemoryWriteSetsOneByte := by
  intro s a b hwf
  refine ⟨fun a' => ?masked, fun a' => ?readBack, ?frame⟩
  case masked => exact (s.memRead_mask a').symm
  case readBack => exact State.memRead_memStore_singleton hwf a b a'
  case frame => exact s.memStore_eq_with_memory a [b]

end Sys2Proof.Machine
end

section
/-!
The absolute jump: the opcode of format `A` as a number (spec/30_encoding.md R82), the target of a 12-bit field, and what
a jump leaves unchanged (spec/40_control_flow.md R108).
-/

namespace Sys2Proof

/-- Format `A` as a number: the family above the 12 bits of `nnn` (R82). -/
theorem formatA_toNat (f : Nibble) (nnn : Imm12) : (formatA f nnn).toNat = f.toNat * 0x1000 + nnn.toNat := by
  rw [formatA, BitVec.toNat_append, ← Nat.shiftLeft_add_eq_or_of_lt nnn.isLt, Nat.shiftLeft_eq]

/-- The opcode `1nnn` as a number plus its field is the encoder's word (R82, R84). -/
theorem ofNat_add_eq_encodeWord_jp (nnn : Imm12) :
    BitVec.ofNat 16 (0x1000 + nnn.toNat) = encodeWord (.jp nnn) := by
  have hword : (encodeWord (.jp nnn)).toNat = 0x1000 + nnn.toNat := formatA_toNat 0x1#4 nnn
  rw [← hword, BitVec.ofNat_toNat, BitVec.setWidth_eq]

theorem decodeWord_encodeWord_jp (nnn : Imm12) : decodeWord (encodeWord (.jp nnn)) = .ok (.jp nnn) := by
  rw [encodeWord, decodeWord, formatA_f, formatA_nnn]
  rfl

end Sys2Proof

namespace Sys2Proof.Machine

theorem exec_jp (nnn : Imm12) (s : State) : exec (.jp nnn) s = .next (s.jump (immAddr nnn)) := rfl

/-- The 12 bits of the field are the whole target: no alignment and no lower bound (R108). -/
theorem immAddr_toNat (nnn : Imm12) : (immAddr nnn).toNat = nnn.toNat :=
  BitVec.toNat_setWidth_of_le (by decide)

/-- A jump writes `PC` alone, wherever it goes. -/
theorem State.changesOnlyRegs_nil_jump (target : Word) (s : State) : ChangesOnlyRegs [] s (s.jump target) := by
  refine ⟨?regs, s.jump_i target, ?stack, ?timers, ?memory, ?picture, ?colours, ?running, ?session⟩
  case regs => exact fun r _ => s.jump_reg target r
  case stack => exact ⟨s.jump_sp target, s.jump_stack target⟩
  case timers => exact ⟨s.jump_dt target, s.jump_st target, s.jump_tone target⟩
  case memory => exact fun a => s.jump_memRead target a
  case picture => exact ⟨s.jump_width target, s.jump_dirty target, fun px py => s.jump_cell target px py⟩
  case colours => exact ⟨s.jump_fg target, s.jump_bg target⟩
  case running => exact ⟨s.jump_status target, s.jump_events target⟩
  case session => exact ⟨s.jump_config target, s.jump_inputs target, s.jump_stepCount target⟩

/-- Settles O38: the number is the encoder's word for the jump, which decodes back, and the jump writes `PC` alone, with
the field's own value. -/
theorem jumpSetsThePc : Obligations.JumpSetsThePc := by
  intro nnn s
  refine ⟨?opcode, s.jump (immAddr nnn), exec_jp nnn s, ?target, s.changesOnlyRegs_nil_jump (immAddr nnn)⟩
  case opcode => rw [ofNat_add_eq_encodeWord_jp, decodeWord_encodeWord_jp]
  case target => rw [State.jump_pc, immAddr_toNat]

end Sys2Proof.Machine
end

section
/-!
Addition and subtraction of registers: the opcodes of family 8 as numbers (spec/30_encoding.md R82, R84), and what
writing a result and then the flag gives and leaves unchanged (spec/42_alu.md R136, R137, R143).
-/

namespace Sys2Proof

/-- Appended words as a number: the first one above the bits of the second. -/
theorem toNat_append_eq_add {n m : Nat} (a : BitVec n) (b : BitVec m) :
    (a ++ b).toNat = a.toNat * 2 ^ m + b.toNat := by
  rw [BitVec.toNat_append, ← Nat.shiftLeft_add_eq_or_of_lt b.isLt, Nat.shiftLeft_eq]

/-- Format `XYN` as a number: each nibble at its place (R82). -/
theorem formatXYN_toNat (f : Nibble) (x y : Reg) (n : Nibble) :
    (formatXYN f x y n).toNat = f.toNat * 0x1000 + 256 * x.val + 16 * y.val + n.toNat := by
  rw [formatXYN, toNat_append_eq_add, toNat_append_eq_add, toNat_append_eq_add, BitVec.toNat_ofFin (n := 4) x,
    BitVec.toNat_ofFin (n := 4) y]
  omega

/-- An opcode of family 8 with `x` and `y` added in at their places is the word of its format (R82, R84). -/
theorem ofNat_add_eq_formatXYN_8 (x y : Reg) (n : Nibble) :
    BitVec.ofNat 16 (0x8000 + n.toNat + 256 * x.val + 16 * y.val) = formatXYN 0x8#4 x y n := by
  have hword : (formatXYN 0x8#4 x y n).toNat = 0x8000 + n.toNat + 256 * x.val + 16 * y.val := by
    rw [formatXYN_toNat, BitVec.toNat_ofNat]
    omega
  rw [← hword, BitVec.ofNat_toNat, BitVec.setWidth_eq]

theorem decodeWord_formatXYN_8 (x y : Reg) (n : Nibble) :
    decodeWord (formatXYN 0x8#4 x y n) = decodeFamily8 (formatXYN 0x8#4 x y n) := by
  rw [decodeWord, formatXYN_f]
  rfl

theorem ofNat_add_eq_encodeWord_addReg (x y : Reg) :
    BitVec.ofNat 16 (0x8004 + 256 * x.val + 16 * y.val) = encodeWord (.addReg x y) :=
  ofNat_add_eq_formatXYN_8 x y 0x4#4

theorem decodeWord_encodeWord_addReg (x y : Reg) : decodeWord (encodeWord (.addReg x y)) = .ok (.addReg x y) := by
  rw [encodeWord, decodeWord_formatXYN_8, decodeFamily8, formatXYN_n, formatXYN_x, formatXYN_y]
  rfl

theorem ofNat_add_eq_encodeWord_sub (x y : Reg) :
    BitVec.ofNat 16 (0x8005 + 256 * x.val + 16 * y.val) = encodeWord (.sub x y) :=
  ofNat_add_eq_formatXYN_8 x y 0x5#4

theorem decodeWord_encodeWord_sub (x y : Reg) : decodeWord (encodeWord (.sub x y)) = .ok (.sub x y) := by
  rw [encodeWord, decodeWord_formatXYN_8, decodeFamily8, formatXYN_n, formatXYN_x, formatXYN_y]
  rfl

end Sys2Proof

namespace Sys2Proof.Machine

theorem exec_addReg (x y : Reg) (s : State) :
    exec (.addReg x y) s =
      .next (s.setResultAndFlag x (s.reg x + s.reg y) (carryFlag (s.reg x) (s.reg y))).advance := rfl

theorem exec_sub (x y : Reg) (s : State) :
    exec (.sub x y) s =
      .next (s.setResultAndFlag x (s.reg x - s.reg y) (noBorrowFlag (s.reg x) (s.reg y))).advance := rfl

/-- A byte difference is the true difference, negative or not, modulo 256 (R137). -/
theorem byte_toNat_sub_eq_emod (a b : Byte) : ((a - b).toNat : Int) = ((a.toNat : Int) - b.toNat) % 256 := by
  rw [BitVec.toNat_sub]
  omega

/-- The flag is written last: `VF` holds it whatever the destination (R143). -/
theorem State.reg_setResultAndFlag_vf (s : State) (x : Reg) (result flag : Byte) :
    (s.setResultAndFlag x result flag).reg 15 = flag := by
  rw [State.reg_setResultAndFlag]
  exact if_pos rfl

/-- The destination holds the result where it is not `VF` (R143). -/
theorem State.reg_setResultAndFlag_result (s : State) {x : Reg} (result flag : Byte) (hx : x ≠ 15) :
    (s.setResultAndFlag x result flag).reg x = result := by
  rw [State.reg_setResultAndFlag, if_neg (show x ≠ vf from hx), if_pos rfl]

theorem State.reg_setResultAndFlag_other (s : State) (x : Reg) (result flag : Byte) {r : Reg}
    (hr : r ∉ [x, (15 : Reg)]) : (s.setResultAndFlag x result flag).reg r = s.reg r := by
  obtain ⟨hrx, hrvf⟩ : r ≠ x ∧ r ≠ 15 := by simpa using hr
  rw [State.reg_setResultAndFlag, if_neg (show r ≠ vf from hrvf), if_neg hrx]

/-- Result, flag and the next `PC`: nothing but `V[x]`, `VF` and `PC` is written (R143). -/
theorem State.changesOnlyRegs_setResultAndFlag_advance (s : State) (x : Reg) (result flag : Byte) :
    ChangesOnlyRegs [x, 15] s (s.setResultAndFlag x result flag).advance := by
  refine ⟨?regs, ?index, ?stack, ?timers, ?memory, ?picture, ?colours, ?running, ?session⟩
  case regs => exact fun r hr => s.reg_setResultAndFlag_other x result flag hr
  case index => simp
  case stack => simp [KeepsStack]
  case timers => simp [KeepsTimers]
  case memory => simp [KeepsMemory]
  case picture => simp [KeepsPicture]
  case colours => simp [KeepsColours]
  case running => simp [KeepsRunning]
  case session => simp [KeepsSession]

/-- Settles O31: the number is the encoder's word for the addition, which decodes back; the sum wraps at 256, and the
carry is written over it where the destination is `VF`. -/
theorem addWritesSumThenCarry : Obligations.AddWritesSumThenCarry := by
  intro x y s
  refine ⟨?opcode, _, exec_addReg x y s, fun hx => ?sum, ?carry, rfl,
    s.changesOnlyRegs_setResultAndFlag_advance x _ _⟩
  case opcode => rw [ofNat_add_eq_encodeWord_addReg, decodeWord_encodeWord_addReg]
  case sum => rw [State.advance_reg, s.reg_setResultAndFlag_result _ _ hx, BitVec.toNat_add]
  case carry => rw [State.advance_reg, State.reg_setResultAndFlag_vf, carryFlag_eq]

/-- Settles O32: the number is the encoder's word for the subtraction, which decodes back; the difference wraps at 256,
and the no-borrow flag is written over it where the destination is `VF`. -/
theorem subWritesDifferenceThenNoBorrow : Obligations.SubWritesDifferenceThenNoBorrow := by
  intro x y s
  refine ⟨?opcode, _, exec_sub x y s, fun hx => ?difference, ?noBorrow, rfl,
    s.changesOnlyRegs_setResultAndFlag_advance x _ _⟩
  case opcode => rw [ofNat_add_eq_encodeWord_sub, decodeWord_encodeWord_sub]
  case difference =>
    rw [State.advance_reg, s.reg_setResultAndFlag_result _ _ hx, byte_toNat_sub_eq_emod]
  case noBorrow => rw [State.advance_reg, State.reg_setResultAndFlag_vf, noBorrowFlag_eq]

end Sys2Proof.Machine
end

section
/-!
Binary-coded decimal: the opcodes of format `X` in family F as numbers (spec/30_encoding.md R82, R84), the three digits
of a byte, and what a store gives and leaves unchanged (spec/43_index_memory.md R154).
-/

namespace Sys2Proof

/-- Format `XK` as a number: each field at its place (R82). -/
theorem formatXK_toNat (f : Nibble) (x : Reg) (kk : Byte) :
    (formatXK f x kk).toNat = f.toNat * 0x1000 + 256 * x.val + kk.toNat := by
  rw [formatXK, toNat_append_eq_add, toNat_append_eq_add, BitVec.toNat_ofFin (n := 4) x]
  omega

/-- An opcode of family F with `x` added in at its place is the word of its format (R82, R84). -/
theorem ofNat_add_eq_formatXK_F (x : Reg) (kk : Byte) :
    BitVec.ofNat 16 (0xF000 + kk.toNat + 256 * x.val) = formatXK 0xF#4 x kk := by
  have hword : (formatXK 0xF#4 x kk).toNat = 0xF000 + kk.toNat + 256 * x.val := by
    rw [formatXK_toNat, BitVec.toNat_ofNat]
    omega
  rw [← hword, BitVec.ofNat_toNat, BitVec.setWidth_eq]

theorem decodeWord_formatXK_F (x : Reg) (kk : Byte) :
    decodeWord (formatXK 0xF#4 x kk) = decodeFamilyF (formatXK 0xF#4 x kk) := by
  rw [decodeWord, formatXK_f]
  rfl

theorem ofNat_add_eq_encodeWord_ldB (x : Reg) : BitVec.ofNat 16 (0xF033 + 256 * x.val) = encodeWord (.ldB x) :=
  ofNat_add_eq_formatXK_F x 0x33#8

theorem decodeWord_encodeWord_ldB (x : Reg) : decodeWord (encodeWord (.ldB x)) = .ok (.ldB x) := by
  rw [encodeWord, decodeWord_formatXK_F, decodeFamilyF, formatXK_kk, formatXK_x]
  rfl

end Sys2Proof

namespace Sys2Proof.Machine

theorem exec_ldB (x : Reg) (s : State) :
    exec (.ldB x) s = .next (s.memStore s.i.toNat (bcdDigits (s.reg x))).advance := rfl

theorem bcdDigits_length (b : Byte) : (bcdDigits b).length = 3 := rfl

/-- The digits as numbers: hundreds, tens and ones (R154). -/
theorem bcdDigits_map_toNat (b : Byte) :
    (bcdDigits b).map BitVec.toNat = [b.toNat / 100, b.toNat / 10 % 10, b.toNat % 10] := by
  simp [bcdDigits, BitVec.toNat_udiv, BitVec.toNat_umod]

/-- Digit `k` of a byte is read back at the `k`-th address of the store (R62, R154). -/
theorem State.toNat_memRead_memStore_bcdDigits {s : State} (h : Memory.wf s.config s.memory = true) (a : Nat) (b : Byte)
    (k : Fin 3) :
    ((s.memStore a (bcdDigits b)).memRead (a + k.val)).toNat =
      [b.toNat / 100, b.toNat / 10 % 10, b.toNat % 10][k.val] := by
  have hread : (s.memStore a (bcdDigits b)).memRead (a + k.val) = (bcdDigits b)[k.val] :=
    State.memRead_memStore h a (bcdDigits b) (by rw [bcdDigits_length]; decide) k.isLt
  simp only [hread, ← bcdDigits_map_toNat, List.getElem_map]

/-- A store and the next `PC`: nothing but the stored bytes and `PC` is written (R62, R150). -/
theorem State.changesOnlyMemory_memStore_advance {s : State} (h : Memory.wf s.config s.memory = true) (a : Nat)
    (bs : List Byte) : ChangesOnlyMemory a bs.length s (s.memStore a bs).advance := by
  refine ⟨?outside, ?regs, ?index, ?stack, ?timers, ?picture, ?colours, ?running, ?session⟩
  case outside => exact fun _ hout => State.memRead_memStore_other h a bs hout
  case regs => simp [KeepsRegs]
  case index => simp
  case stack => simp [KeepsStack]
  case timers => simp [KeepsTimers]
  case picture => simp [KeepsPicture]
  case colours => simp [KeepsColours]
  case running => simp [KeepsRunning]
  case session => simp [KeepsSession]

/-- Settles O45: the number is the encoder's word for the store, which decodes back; each digit is read back at its own
masked address, and nothing but the three bytes and `PC` is written. -/
theorem bcdStoresThreeDigits : Obligations.BcdStoresThreeDigits := by
  intro x s hwf
  have hdigit := State.toNat_memRead_memStore_bcdDigits hwf s.i.toNat (s.reg x)
  refine ⟨?opcode, _, exec_ldB x s, ?hundreds, ?tens, ?ones, rfl,
    State.changesOnlyMemory_memStore_advance hwf s.i.toNat (bcdDigits (s.reg x))⟩
  case opcode => rw [ofNat_add_eq_encodeWord_ldB, decodeWord_encodeWord_ldB]
  case hundreds => exact hdigit 0
  case tens => exact hdigit 1
  case ones => exact hdigit 2

end Sys2Proof.Machine
end

section
/-!
Clearing the display: the opcode `00E0` (spec/30_encoding.md R84), and what filling the plane gives and leaves unchanged
(spec/45_display.md R170, R173).
-/

namespace Sys2Proof

theorem decodeWord_cls : decodeWord 0x00E0#16 = .ok .cls := rfl

end Sys2Proof

namespace Sys2Proof.Machine

theorem exec_cls (s : State) : exec .cls s = .next s.clear.advance := rfl

/-- A cleared plane and the next `PC`: nothing but the cells, the dirty flag and `PC` is written (R170). -/
theorem State.changesOnlyPicture_nil_clear_advance (s : State) : ChangesOnlyPicture [] s s.clear.advance := by
  refine ⟨?regs, ?index, ?stack, ?timers, ?memory, ?colours, ?status, ?session⟩
  case regs => simp [KeepsRegs]
  case index => simp
  case stack => simp [KeepsStack]
  case timers => simp [KeepsTimers]
  case memory => simp [KeepsMemory]
  case colours => simp [KeepsColours]
  case status => simp
  case session => simp [KeepsSession]

/-- Settles O52: the opcode decodes to the clear, which fills the live cells of the width it finds and sets the dirty
flag; the width, the events and all outside the picture are kept. -/
theorem clearFillsWithTheBackground : Obligations.ClearFillsWithTheBackground := by
  refine ⟨decodeWord_cls, fun s => ⟨s.clear.advance, exec_cls s, ?cells, ?dirty, ?width, ?events, ?pc,
    s.changesOnlyPicture_nil_clear_advance⟩⟩
  case cells =>
    rintro px py ⟨hx, hy⟩
    rw [State.advance_cell, s.cell_clear hx hy]
  case dirty => rw [State.advance_dirty, State.clear_dirty]
  case width => rw [State.advance_width, State.clear_width]
  case events => rw [State.advance_events, State.clear_events]
  case pc => rw [State.advance_pc, State.clear_pc]

end Sys2Proof.Machine
end

section
/-!
The code of the instructions: an opcode put together again from its fields and from its fixed bits, what the decoder can
answer, and the row of the opcode table that each opcode belongs to (spec/30_encoding.md R80 to R91).
-/

namespace Sys2Proof

/-! ### The fields of an opcode as numbers, and the opcode made of them again (R81, R82) -/

theorem fieldF_toNat (op : Word) : (fieldF op).toNat = op.toNat / 4096 := by
  rw [fieldF, BitVec.extractLsb'_toNat, Nat.shiftRight_eq_div_pow]
  omega

theorem fieldNNN_toNat (op : Word) : (fieldNNN op).toNat = op.toNat % 4096 := by
  rw [fieldNNN, BitVec.extractLsb'_toNat, Nat.shiftRight_zero]

theorem fieldX_val (op : Word) : (fieldX op).val = op.toNat / 256 % 16 := by
  rw [fieldX, BitVec.val_toFin, BitVec.extractLsb'_toNat, Nat.shiftRight_eq_div_pow]

theorem fieldY_val (op : Word) : (fieldY op).val = op.toNat / 16 % 16 := by
  rw [fieldY, BitVec.val_toFin, BitVec.extractLsb'_toNat, Nat.shiftRight_eq_div_pow]

theorem fieldKK_toNat (op : Word) : (fieldKK op).toNat = op.toNat % 256 := by
  rw [fieldKK, BitVec.extractLsb'_toNat, Nat.shiftRight_zero]

theorem fieldN_toNat (op : Word) : (fieldN op).toNat = op.toNat % 16 := by
  rw [fieldN, BitVec.extractLsb'_toNat, Nat.shiftRight_zero]

theorem formatA_fields (op : Word) : formatA (fieldF op) (fieldNNN op) = op := by
  apply BitVec.eq_of_toNat_eq
  rw [formatA_toNat, fieldF_toNat, fieldNNN_toNat]
  omega

theorem formatXK_fields (op : Word) : formatXK (fieldF op) (fieldX op) (fieldKK op) = op := by
  apply BitVec.eq_of_toNat_eq
  rw [formatXK_toNat, fieldF_toNat, fieldX_val, fieldKK_toNat]
  omega

theorem formatXYN_fields (op : Word) : formatXYN (fieldF op) (fieldX op) (fieldY op) (fieldN op) = op := by
  apply BitVec.eq_of_toNat_eq
  rw [formatXYN_toNat, fieldF_toNat, fieldX_val, fieldY_val, fieldN_toNat]
  omega

theorem formatZN_fields (op : Word) : formatZN (op.extractLsb' 4 12) (fieldN op) = op := by
  apply BitVec.eq_of_toNat_eq
  rw [formatZN, toNat_append_eq_add, fieldN_toNat, BitVec.extractLsb'_toNat, Nat.shiftRight_eq_div_pow]
  omega

/-! ### An opcode from the values of its fixed fields -/

section Fields

variable {op : Word} {f : Nibble}

theorem formatA_of_fieldF (hf : fieldF op = f) : formatA f (fieldNNN op) = op := by
  rw [← hf, formatA_fields]

theorem formatXK_of_fieldF (hf : fieldF op = f) : formatXK f (fieldX op) (fieldKK op) = op := by
  rw [← hf, formatXK_fields]

theorem formatXK_of_fieldKK {kk : Byte} (hf : fieldF op = f) (hkk : fieldKK op = kk) :
    formatXK f (fieldX op) kk = op := by
  rw [← hkk, formatXK_of_fieldF hf]

theorem formatXYN_of_fieldF (hf : fieldF op = f) : formatXYN f (fieldX op) (fieldY op) (fieldN op) = op := by
  rw [← hf, formatXYN_fields]

theorem formatXYN_of_fieldN {n : Nibble} (hf : fieldF op = f) (hn : fieldN op = n) :
    formatXYN f (fieldX op) (fieldY op) n = op := by
  rw [← hn, formatXYN_of_fieldF hf]

end Fields

/-! ### Decoding what was encoded -/

theorem formatZN_n (fixed : Imm12) (n : Nibble) : fieldN (formatZN fixed n) = n := by
  apply BitVec.eq_of_toNat_eq
  rw [fieldN_toNat, formatZN, toNat_append_eq_add]
  omega

/-- The scroll's eight fixed bits below the family are the low ones of its twelve fixed bits (R84). -/
theorem decodeWord_formatZN_0C (n : Nibble) : decodeWord (formatZN 0x00C#12 n) = .ok (.scd n) := by
  have hnat : (formatZN 0x00C#12 n).toNat = 0xC * 16 + n.toNat := toNat_append_eq_add 0x00C#12 n
  have hf : (fieldF (formatZN 0x00C#12 n)).toNat = 0 := by rw [fieldF_toNat, hnat]; omega
  have hfixed : (formatZN 0x00C#12 n).extractLsb' 4 8 = 0x0C#8 := by
    apply BitVec.eq_of_toNat_eq
    rw [BitVec.extractLsb'_toNat, Nat.shiftRight_eq_div_pow, hnat, BitVec.toNat_ofNat]
    omega
  rw [decodeWord, hf]
  show decodeFamily0 _ = _
  rw [decodeFamily0, if_pos hfixed, formatZN_n]

/-- Each instruction is decoded from its word: the family leads to its function, the selector to its constructor, and
the fields give the operands back (R81 to R84). -/
theorem decodeWord_encodeWord (i : Instr) : decodeWord (encodeWord i) = .ok i := by
  cases i with
  | scd n => exact decodeWord_formatZN_0C n
  | jp nnn | call nnn | ldI nnn | jpV0 nnn =>
    rw [encodeWord, decodeWord, formatA_f, formatA_nnn]
    rfl
  | seImm x kk | sneImm x kk | ldImm x kk | addImm x kk | rnd x kk =>
    rw [encodeWord, decodeWord, formatXK_f, formatXK_x, formatXK_kk]
    rfl
  | drw x y n =>
    rw [encodeWord, decodeWord, formatXYN_f, formatXYN_x, formatXYN_y, formatXYN_n]
    rfl
  | seReg x y | sneReg x y =>
    rw [encodeWord, decodeWord, formatXYN_f]
    show (if fieldN _ = 0 then Except.ok _ else _) = _
    rw [formatXYN_n, formatXYN_x, formatXYN_y]
    rfl
  | ldReg x y | or x y | and x y | xor x y | addReg x y | sub x y | shr x y | subn x y | shl x y =>
    rw [encodeWord, decodeWord_formatXYN_8, decodeFamily8, formatXYN_n, formatXYN_x, formatXYN_y]
    rfl
  | skp x | sknp x =>
    rw [encodeWord, decodeWord, formatXK_f]
    show decodeFamilyE _ = _
    rw [decodeFamilyE, formatXK_kk, formatXK_x]
    rfl
  | ldVxDt x | ldVxK x | ldDtVx x | ldStVx x | addI x | ldF x | ldB x | storeRegs x | loadRegs x
  | unsupportedFx30 x | unsupportedFx75 x | unsupportedFx85 x =>
    rw [encodeWord, decodeWord_formatXK_F, decodeFamilyF, formatXK_kk, formatXK_x]
    rfl
  | cls | ret | scr | scl | exit | low | high | sys100 | sys101 | sys102 => rfl

theorem encodeWord_injective {i j : Instr} (h : encodeWord i = encodeWord j) : i = j := by
  have hok : Except.ok i = (Except.ok j : Except DecodeError Instr) := by
    rw [← decodeWord_encodeWord, h, decodeWord_encodeWord]
  exact Except.ok.inj hok

/-- Settles O1: the bytes decode as the word does, and the word decodes back. -/
theorem decodeOfEncodeIsTheInstruction : Obligations.DecodeOfEncodeIsTheInstruction := by
  intro i rest
  rw [decode_encode_eq, decodeWord_encodeWord]

/-! ### What the decoder can answer -/

/-- A decoder's answer to `op` is an instruction that is encoded as `op`, or it refuses `op` with its bits. -/
def AnswersFor (op : Word) (answer : Except DecodeError Instr) : Prop :=
  (∃ i, answer = .ok i ∧ encodeWord i = op) ∨ answer = .error (.invalid op)

theorem answersFor_ok {op : Word} {i : Instr} (h : encodeWord i = op) : AnswersFor op (.ok i) := .inl ⟨i, rfl, h⟩

theorem answersFor_invalid (op : Word) : AnswersFor op (.error (.invalid op)) := .inr rfl

theorem formatZN_of_family0 {op : Word} (hf : fieldF op = 0#4) (hfixed : op.extractLsb' 4 8 = 0x0C#8) :
    formatZN 0x00C#12 (fieldN op) = op := by
  have hhigh : op.extractLsb' 4 12 = 0x00C#12 := by
    have hf' : op.toNat / 4096 = 0 := by rw [← fieldF_toNat, hf]; rfl
    have hfixed' : op.toNat / 16 % 256 = 0xC := by
      have := congrArg BitVec.toNat hfixed
      rwa [BitVec.extractLsb'_toNat, Nat.shiftRight_eq_div_pow] at this
    apply BitVec.eq_of_toNat_eq
    rw [BitVec.extractLsb'_toNat, Nat.shiftRight_eq_div_pow, BitVec.toNat_ofNat]
    omega
  rw [← hhigh, formatZN_fields]

theorem decodeFamily0_answersFor {op : Word} (hf : fieldF op = 0x0#4) : AnswersFor op (decodeFamily0 op) := by
  have hword {value : Word} (hvalue : (fieldNNN op).toNat = value.toNat) : value = op := by
    apply BitVec.eq_of_toNat_eq
    rw [← hvalue, ← formatA_of_fieldF hf, formatA_toNat, formatA_nnn, BitVec.toNat_zero, Nat.zero_mul, Nat.zero_add]
  unfold decodeFamily0
  split
  · exact answersFor_ok (formatZN_of_family0 hf ‹_›)
  · split
    case h_11 => exact answersFor_invalid op
    all_goals exact answersFor_ok (hword ‹_›)

theorem decodeFamily5_answersFor {op : Word} (hf : fieldF op = 0x5#4) : AnswersFor op (decodeFamily5 op) := by
  unfold decodeFamily5
  split
  · exact answersFor_ok (formatXYN_of_fieldN hf ‹_›)
  · exact answersFor_invalid op

theorem decodeFamily8_answersFor {op : Word} (hf : fieldF op = 0x8#4) : AnswersFor op (decodeFamily8 op) := by
  unfold decodeFamily8
  split
  case h_10 => exact answersFor_invalid op
  all_goals exact answersFor_ok (formatXYN_of_fieldN hf (BitVec.eq_of_toNat_eq ‹_›))

theorem decodeFamily9_answersFor {op : Word} (hf : fieldF op = 0x9#4) : AnswersFor op (decodeFamily9 op) := by
  unfold decodeFamily9
  split
  · exact answersFor_ok (formatXYN_of_fieldN hf ‹_›)
  · exact answersFor_invalid op

theorem decodeFamilyE_answersFor {op : Word} (hf : fieldF op = 0xE#4) : AnswersFor op (decodeFamilyE op) := by
  unfold decodeFamilyE
  split
  case h_3 => exact answersFor_invalid op
  all_goals exact answersFor_ok (formatXK_of_fieldKK hf (BitVec.eq_of_toNat_eq ‹_›))

theorem decodeFamilyF_answersFor {op : Word} (hf : fieldF op = 0xF#4) : AnswersFor op (decodeFamilyF op) := by
  unfold decodeFamilyF
  split
  case h_13 => exact answersFor_invalid op
  all_goals exact answersFor_ok (formatXK_of_fieldKK hf (BitVec.eq_of_toNat_eq ‹_›))

/-- The whole decoder, family by family (R84, R86). -/
theorem decodeWord_answersFor (op : Word) : AnswersFor op (decodeWord op) := by
  have hfamily {f : Nibble} (h : (fieldF op).toNat = f.toNat) : fieldF op = f := BitVec.eq_of_toNat_eq h
  unfold decodeWord
  split
  case h_1 h => exact decodeFamily0_answersFor (hfamily h)
  case h_6 h => exact decodeFamily5_answersFor (hfamily h)
  case h_9 h => exact decodeFamily8_answersFor (hfamily h)
  case h_10 h => exact decodeFamily9_answersFor (hfamily h)
  case h_15 h => exact decodeFamilyE_answersFor (hfamily h)
  case h_16 =>
    have hlt := (fieldF op).isLt
    have hlast : (fieldF op).toNat = 15 := by grind
    exact decodeFamilyF_answersFor (hfamily hlast)
  case h_14 h => exact answersFor_ok (formatXYN_of_fieldF (hfamily h))
  case h_2 h | h_3 h | h_11 h | h_12 h => exact answersFor_ok (formatA_of_fieldF (hfamily h))
  case h_4 h | h_5 h | h_7 h | h_8 h | h_13 h => exact answersFor_ok (formatXK_of_fieldF (hfamily h))

theorem encodeWord_of_decodeWord {op : Word} {i : Instr} (h : decodeWord op = .ok i) : encodeWord i = op := by
  obtain ⟨j, hj, henc⟩ | hinvalid := decodeWord_answersFor op
  · rwa [Except.ok.inj (h.symm.trans hj)]
  · rw [h] at hinvalid
    cases hinvalid

/-- The decoder inverts the encoder, and nothing else decodes (R84, R91). -/
theorem decodeWord_eq_ok_iff {op : Word} {i : Instr} : decodeWord op = .ok i ↔ op = encodeWord i :=
  ⟨fun h => (encodeWord_of_decodeWord h).symm, fun h => h ▸ decodeWord_encodeWord i⟩

/-- Settles O2: each branch of the decoder reads the fields that its format puts together again. -/
theorem encodeOfDecodeIsTheOpcode : Obligations.EncodeOfDecodeIsTheOpcode :=
  fun _ _ => encodeWord_of_decodeWord

/-! ### The rows of the opcode table (R91) -/

/-- A field that lies in the fixed bits of a mask holds what the value holds there. -/
theorem extractLsb'_eq_of_and_eq {op mask value : Word} {start len : Nat} (h : op &&& mask = value)
    (hmask : mask.extractLsb' start len = BitVec.allOnes len) :
    op.extractLsb' start len = value.extractLsb' start len := by
  rw [← h, BitVec.extractLsb'_and, hmask, BitVec.and_allOnes]

section Rows

variable {op : Word} {r : OpcodeRow}

theorem OpcodeRow.accepts_iff : r.accepts op = true ↔ op &&& r.mask = r.value := beq_iff_eq

theorem OpcodeRow.fieldF_of_accepts (h : r.accepts op = true) (hmask : fieldF r.mask = 0xF#4) :
    fieldF op = fieldF r.value :=
  extractLsb'_eq_of_and_eq (OpcodeRow.accepts_iff.mp h) hmask

theorem OpcodeRow.fieldN_of_accepts (h : r.accepts op = true) (hmask : fieldN r.mask = 0xF#4) :
    fieldN op = fieldN r.value :=
  extractLsb'_eq_of_and_eq (OpcodeRow.accepts_iff.mp h) hmask

theorem OpcodeRow.fieldKK_of_accepts (h : r.accepts op = true) (hmask : fieldKK r.mask = 0xFF#8) :
    fieldKK op = fieldKK r.value :=
  extractLsb'_eq_of_and_eq (OpcodeRow.accepts_iff.mp h) hmask

/-! Each row's fixed bits lead the decoder to one of its constructors. -/

theorem decodes_of_family0 (hr : r ∈ opcodeTableFamily0) (h : r.accepts op = true) : ∃ i, decodeWord op = .ok i := by
  simp only [opcodeTableFamily0, List.mem_cons, List.not_mem_nil, or_false] at hr
  obtain rfl | hr := hr
  · have hhigh : op.extractLsb' 4 12 = 0x00C#12 := extractLsb'_eq_of_and_eq (OpcodeRow.accepts_iff.mp h) rfl
    rw [← formatZN_fields op, hhigh, decodeWord_formatZN_0C]
    exact ⟨_, rfl⟩
  · have hword (hmask : r.mask = BitVec.allOnes 16) : op = r.value := by
      rw [← OpcodeRow.accepts_iff.mp h, hmask, BitVec.and_allOnes]
    obtain rfl | rfl | rfl | rfl | rfl | rfl | rfl | rfl | rfl | rfl := hr
    all_goals
      rw [hword rfl]
      exact ⟨_, rfl⟩

theorem decodes_of_families1To7 (hr : r ∈ opcodeTableFamilies1To7) (h : r.accepts op = true) :
    ∃ i, decodeWord op = .ok i := by
  simp only [opcodeTableFamilies1To7, List.mem_cons, List.not_mem_nil, or_false] at hr
  obtain rfl | rfl | rfl | rfl | rfl | rfl | rfl := hr
  all_goals rw [decodeWord, OpcodeRow.fieldF_of_accepts h rfl]
  pick_goal 5
  · show ∃ i, decodeFamily5 op = .ok i
    rw [decodeFamily5, OpcodeRow.fieldN_of_accepts h rfl]
    exact ⟨_, rfl⟩
  all_goals exact ⟨_, rfl⟩

theorem decodes_of_families8To9 (hr : r ∈ opcodeTableFamilies8To9) (h : r.accepts op = true) :
    ∃ i, decodeWord op = .ok i := by
  simp only [opcodeTableFamilies8To9, List.mem_cons, List.not_mem_nil, or_false] at hr
  obtain rfl | rfl | rfl | rfl | rfl | rfl | rfl | rfl | rfl | rfl := hr
  all_goals rw [decodeWord, OpcodeRow.fieldF_of_accepts h rfl]
  pick_goal 10
  · show ∃ i, decodeFamily9 op = .ok i
    rw [decodeFamily9, OpcodeRow.fieldN_of_accepts h rfl]
    exact ⟨_, rfl⟩
  all_goals
    show ∃ i, decodeFamily8 op = .ok i
    rw [decodeFamily8, OpcodeRow.fieldN_of_accepts h rfl]
    exact ⟨_, rfl⟩

theorem decodes_of_familiesAToE (hr : r ∈ opcodeTableFamiliesAToE) (h : r.accepts op = true) :
    ∃ i, decodeWord op = .ok i := by
  simp only [opcodeTableFamiliesAToE, List.mem_cons, List.not_mem_nil, or_false] at hr
  obtain rfl | rfl | rfl | rfl | rfl | rfl := hr
  all_goals rw [decodeWord, OpcodeRow.fieldF_of_accepts h rfl]
  iterate 4 exact ⟨_, rfl⟩
  all_goals
    show ∃ i, decodeFamilyE op = .ok i
    rw [decodeFamilyE, OpcodeRow.fieldKK_of_accepts h rfl]
    exact ⟨_, rfl⟩

theorem decodes_of_familyF (hr : r ∈ opcodeTableFamilyF) (h : r.accepts op = true) : ∃ i, decodeWord op = .ok i := by
  simp only [opcodeTableFamilyF, List.mem_cons, List.not_mem_nil, or_false] at hr
  obtain rfl | rfl | rfl | rfl | rfl | rfl | rfl | rfl | rfl | rfl | rfl | rfl := hr
  all_goals
    rw [decodeWord, OpcodeRow.fieldF_of_accepts h rfl]
    show ∃ i, decodeFamilyF op = .ok i
    rw [decodeFamilyF, OpcodeRow.fieldKK_of_accepts h rfl]
    exact ⟨_, rfl⟩

theorem decodes_of_accepts (hr : r ∈ opcodeTable) (h : r.accepts op = true) : ∃ i, decodeWord op = .ok i := by
  simp only [opcodeTable, List.mem_append, or_assoc] at hr
  obtain hr | hr | hr | hr | hr := hr
  · exact decodes_of_family0 hr h
  · exact decodes_of_families1To7 hr h
  · exact decodes_of_families8To9 hr h
  · exact decodes_of_familiesAToE hr h
  · exact decodes_of_familyF hr h

end Rows

theorem opcodeWellFormed_iff {op : Word} :
    opcodeWellFormed op = true ↔ ∃ r ∈ opcodeTable, r.accepts op = true := List.any_eq_true

theorem rowMatch : ∀ i : Instr, Laws.RowMatch.Statement i
  | .scd n => Laws.RowMatch.scd n
  | .cls => Laws.RowMatch.cls
  | .ret => Laws.RowMatch.ret
  | .scr => Laws.RowMatch.scr
  | .scl => Laws.RowMatch.scl
  | .exit => Laws.RowMatch.exit
  | .low => Laws.RowMatch.low
  | .high => Laws.RowMatch.high
  | .sys100 => Laws.RowMatch.sys100
  | .sys101 => Laws.RowMatch.sys101
  | .sys102 => Laws.RowMatch.sys102
  | .jp nnn => Laws.RowMatch.jp nnn
  | .call nnn => Laws.RowMatch.call nnn
  | .seImm x kk => Laws.RowMatch.seImm x kk
  | .sneImm x kk => Laws.RowMatch.sneImm x kk
  | .seReg x y => Laws.RowMatch.seReg x y
  | .ldImm x kk => Laws.RowMatch.ldImm x kk
  | .addImm x kk => Laws.RowMatch.addImm x kk
  | .ldReg x y => Laws.RowMatch.ldReg x y
  | .or x y => Laws.RowMatch.or x y
  | .and x y => Laws.RowMatch.and x y
  | .xor x y => Laws.RowMatch.xor x y
  | .addReg x y => Laws.RowMatch.addReg x y
  | .sub x y => Laws.RowMatch.sub x y
  | .shr x y => Laws.RowMatch.shr x y
  | .subn x y => Laws.RowMatch.subn x y
  | .shl x y => Laws.RowMatch.shl x y
  | .sneReg x y => Laws.RowMatch.sneReg x y
  | .ldI nnn => Laws.RowMatch.ldI nnn
  | .jpV0 nnn => Laws.RowMatch.jpV0 nnn
  | .rnd x kk => Laws.RowMatch.rnd x kk
  | .drw x y n => Laws.RowMatch.drw x y n
  | .skp x => Laws.RowMatch.skp x
  | .sknp x => Laws.RowMatch.sknp x
  | .ldVxDt x => Laws.RowMatch.ldVxDt x
  | .ldVxK x => Laws.RowMatch.ldVxK x
  | .ldDtVx x => Laws.RowMatch.ldDtVx x
  | .ldStVx x => Laws.RowMatch.ldStVx x
  | .addI x => Laws.RowMatch.addI x
  | .ldF x => Laws.RowMatch.ldF x
  | .ldB x => Laws.RowMatch.ldB x
  | .storeRegs x => Laws.RowMatch.storeRegs x
  | .loadRegs x => Laws.RowMatch.loadRegs x
  | .unsupportedFx30 x => Laws.RowMatch.unsupportedFx30 x
  | .unsupportedFx75 x => Laws.RowMatch.unsupportedFx75 x
  | .unsupportedFx85 x => Laws.RowMatch.unsupportedFx85 x

theorem opcodeWellFormed_encodeWord (i : Instr) : opcodeWellFormed (encodeWord i) = true := by
  obtain ⟨r, hr, -, h⟩ := rowMatch i
  exact opcodeWellFormed_iff.mpr ⟨r, hr, h⟩

/-- Well formed is what decodes (R91). -/
theorem decodes_iff_opcodeWellFormed {op : Word} : (∃ i, decodeWord op = .ok i) ↔ opcodeWellFormed op = true := by
  constructor
  · rintro ⟨i, hi⟩
    rw [← encodeWord_of_decodeWord hi]
    exact opcodeWellFormed_encodeWord i
  · intro h
    obtain ⟨r, hr, haccepts⟩ := opcodeWellFormed_iff.mp h
    exact decodes_of_accepts hr haccepts

theorem decodeWord_of_not_opcodeWellFormed {op : Word} (h : opcodeWellFormed op = false) :
    decodeWord op = .error (.invalid op) := by
  refine (decodeWord_answersFor op).resolve_left ?_
  rintro ⟨i, hi, -⟩
  exact Bool.false_ne_true (h.symm.trans (decodes_iff_opcodeWellFormed.mp ⟨i, hi⟩))

/-- Any two rows differ in a bit that both of them fix. -/
theorem opcodeTable_pairwise_differ :
    opcodeTable.Pairwise fun r r' => r.value &&& r'.mask ≠ r'.value &&& r.mask := by decide

/-- Two rows that accept one opcode agree on the bits that both of them fix. -/
theorem OpcodeRow.agree_of_accepts {op : Word} {r r' : OpcodeRow} (h : r.accepts op = true)
    (h' : r'.accepts op = true) : r.value &&& r'.mask = r'.value &&& r.mask := by
  rw [← OpcodeRow.accepts_iff.mp h, ← OpcodeRow.accepts_iff.mp h', BitVec.and_assoc, BitVec.and_assoc,
    BitVec.and_comm r.mask]

/-- Settles O3: the fixed bits of each row lead to a constructor, and the word of each instruction is in a row. -/
theorem decoderAcceptsExactlyTheOpcodeTable : Obligations.DecoderAcceptsExactlyTheOpcodeTable :=
  fun _ => ⟨decodes_iff_opcodeWellFormed.mpr, decodeWord_of_not_opcodeWellFormed⟩

/-- Settles O4: two different rows would have to agree on the bits that both of them fix, and no two do. -/
theorem opcodeTableRowsAreDisjoint : Obligations.OpcodeTableRowsAreDisjoint := by
  intro op r r' hr hr' h h'
  by_contra hne
  have hsymm : Std.Symm fun r r' : OpcodeRow => r.value &&& r'.mask ≠ r'.value &&& r.mask := ⟨fun _ _ => Ne.symm⟩
  exact opcodeTable_pairwise_differ.forall hr hr' hne (OpcodeRow.agree_of_accepts h h')

/-- Settles O5, by decoding each sample. -/
theorem sampleOpcodesDecode : Obligations.SampleOpcodesDecode :=
  ⟨rfl, rfl, rfl, rfl, rfl, rfl, rfl, rfl, rfl⟩

end Sys2Proof
end

section
/-!
The next state of an instruction and of a step as functions of the state: every instruction completes, and a step is the
instruction and what ends the step (spec/40_control_flow.md R100, spec/60_exceptions.md R204, R205).
-/

namespace Sys2Proof.Machine

open Host (Outcome)

/-! ### The next state of an instruction -/

/-- What `Fx0A` leaves: the least key taken and `PC` past the instruction, or nothing changed (R161). -/
def State.awaitKey (x : Reg) (s : State) : State :=
  { s with
    v := match lowestKey s.input.keys with
      | none => s.v
      | some k => s.v.set x (BitVec.ofNat 8 k.val)
    pc := match lowestKey s.input.keys with
      | none => s.pc
      | some _ => s.pc + 2 }

/-- The state that instruction `i` leaves. -/
def State.after (i : Instr) (s : State) : State :=
  match i with
  | .scd n => (s.redraw fun px py => if n.toNat ≤ py then s.cell px (py - n.toNat) else s.bg).advance
  | .cls => s.clear.advance
  | .ret => s.pop.jump s.topOfStack
  | .scr => (s.redraw fun px py => if 4 ≤ px then s.cell (px - 4) py else s.bg).advance
  | .scl => (s.redraw fun px py => if px + 4 < s.width.cols then s.cell (px + 4) py else s.bg).advance
  | .exit => s.raise .exited
  | .low => (s.resize .w64).advance
  | .high => (s.resize .w128).advance
  | .sys100 => (s.emit [.setFrequency (s.reg 0)]).advance
  | .sys101 => s.restart
  | .sys102 => (s.setColours (s.reg 0) (s.reg 1)).advance
  | .jp nnn => s.jump (immAddr nnn)
  | .call nnn => (s.push (s.pc + 2)).jump (immAddr nnn)
  | .seImm x kk => s.skipIf (s.reg x == kk)
  | .sneImm x kk => s.skipIf (s.reg x != kk)
  | .seReg x y => s.skipIf (s.reg x == s.reg y)
  | .ldImm x kk => (s.setReg x kk).advance
  | .addImm x kk => (s.setReg x (s.reg x + kk)).advance
  | .ldReg x y => (s.setReg x (s.reg y)).advance
  | .or x y => (s.setReg x (s.reg x ||| s.reg y)).advance
  | .and x y => (s.setReg x (s.reg x &&& s.reg y)).advance
  | .xor x y => (s.setReg x (s.reg x ^^^ s.reg y)).advance
  | .addReg x y => (s.setResultAndFlag x (s.reg x + s.reg y) (carryFlag (s.reg x) (s.reg y))).advance
  | .sub x y => (s.setResultAndFlag x (s.reg x - s.reg y) (noBorrowFlag (s.reg x) (s.reg y))).advance
  | .shr x y => (s.setResultAndFlag x (s.shiftSource x y >>> 1) (shiftedOutRight (s.shiftSource x y))).advance
  | .subn x y => (s.setResultAndFlag x (s.reg y - s.reg x) (noBorrowFlag (s.reg y) (s.reg x))).advance
  | .shl x y => (s.setResultAndFlag x (s.shiftSource x y <<< 1) (shiftedOutLeft (s.shiftSource x y))).advance
  | .sneReg x y => s.skipIf (s.reg x != s.reg y)
  | .ldI nnn => (s.setIndex (immAddr nnn)).advance
  | .jpV0 nnn => s.jump (immAddr nnn + wide (s.reg 0))
  | .rnd x kk => (s.setReg x (s.randomByte &&& kk)).advance
  | .drw x y n =>
    ((s.plotPixels (s.drawnPixels x y n)).setReg vf (flagByte (s.collides (s.drawnPixels x y n)))).advance
  | .skp x => s.skipIf (s.keyDown x)
  | .sknp x => s.skipIf (!s.keyDown x)
  | .ldVxDt x => (s.setReg x s.dt).advance
  | .ldVxK x => s.awaitKey x
  | .ldDtVx x => (s.setDelay (s.reg x)).advance
  | .ldStVx x => (s.setSound (s.reg x)).advance
  | .addI x => (s.setIndex (s.i + wide (s.reg x))).advance
  | .ldF x => (s.setIndex (glyphAddr (s.reg x))).advance
  | .ldB x => (s.memStore (s.ea 0) (bcdDigits (s.reg x))).advance
  | .storeRegs x => (s.memStore (s.ea 0) (s.regsUpTo x)).advance
  | .loadRegs x => (s.loadRegsTo x fun k => s.memRead (s.ea k)).advance
  | .unsupportedFx30 _ => s.raise .unsupported
  | .unsupportedFx75 _ => s.raise .unsupported
  | .unsupportedFx85 _ => s.raise .unsupported

theorem State.awaitKey_of_none {x : Reg} {s : State} (h : lowestKey s.input.keys = none) : s.awaitKey x = s := by
  rw [State.awaitKey, h]

theorem State.awaitKey_of_some {x k : Reg} {s : State} (h : lowestKey s.input.keys = some k) :
    s.awaitKey x = (s.setReg x (BitVec.ofNat 8 k.val)).advance := by
  rw [State.awaitKey, h]
  rfl

theorem exec_ldVxK (x : Reg) (s : State) : exec (.ldVxK x) s = .next (s.awaitKey x) := by
  show execLdVxK x s = _
  unfold execLdVxK
  cases h : lowestKey s.input.keys with
  | none => rw [State.awaitKey_of_none h]
  | some k => rw [State.awaitKey_of_some h]

/-- Every instruction answers a next state, from every state. -/
theorem exec_eq_next (i : Instr) (s : State) : exec i s = .next (s.after i) := by
  cases i with
  | ldVxK x => exact exec_ldVxK x s
  | _ => rfl

theorem after_of_exec {i : Instr} {s t : State} (h : exec i s = .next t) : t = s.after i := by
  rw [exec_eq_next] at h
  exact (Outcome.next.inj h).symm

/-! ### The next state of a step -/

section Step

variable {s : State}

/-- A running core that has fetched an instruction (R100). -/
theorem step_of_decodes {i : Instr} (hrun : s.status = .running) (hdecode : decodeWord s.fetch = .ok i) :
    step s = .next (s.beginStep.after i).endStep := by
  simp only [step, hrun, runDecoded, hdecode, exec_eq_next]

/-- A running core that has fetched an opcode of no row (R107, R201). -/
theorem step_of_not_wellFormed (hrun : s.status = .running) (hop : opcodeWellFormed s.fetch = false) :
    step s = .next (s.beginStep.raise (.invalid s.fetch)).endStep := by
  simp only [step, hrun, runDecoded, decodeWord_of_not_opcodeWellFormed hop, execInvalid]

/-- A halted core (R205). -/
theorem step_of_halted (h : s.status ≠ .running) : step s = .next s.beginStep.endStep := by
  obtain ⟨hrun, -⟩ | ⟨hrun, -⟩ | ⟨-, hstep⟩ := step_cases (rfl : step s = step s)
  · exact absurd hrun h
  · exact absurd hrun h
  · rwa [State.endStep_halted (s := s.beginStep) h]

/-- What a step from `s` has made of the state before the end of the step: what its instruction leaves, the condition of
an invalid opcode, or on a halted core nothing. -/
inductive MidStep (s : State) : State → Prop where
  | instr {i : Instr} (hrun : s.status = .running) (hdecode : decodeWord s.fetch = .ok i) :
      MidStep s (s.beginStep.after i)
  | invalid (hrun : s.status = .running) (hop : opcodeWellFormed s.fetch = false) :
      MidStep s (s.beginStep.raise (.invalid s.fetch))
  | halted (h : s.status ≠ .running) : MidStep s s.beginStep

theorem step_of_midStep {u : State} (hmid : MidStep s u) : step s = .next u.endStep := by
  cases hmid with
  | instr hrun hdecode => exact step_of_decodes hrun hdecode
  | invalid hrun hop => exact step_of_not_wellFormed hrun hop
  | halted h => exact step_of_halted h

theorem exists_midStep (s : State) : ∃ u, MidStep s u ∧ step s = .next u.endStep := by
  suffices hmid : ∃ u, MidStep s u from hmid.imp fun _ h => ⟨h, step_of_midStep h⟩
  by_cases hrun : s.status = .running
  · cases hop : opcodeWellFormed s.fetch with
    | true =>
      obtain ⟨i, hdecode⟩ := decodes_iff_opcodeWellFormed.mpr hop
      exact ⟨_, .instr hrun hdecode⟩
    | false => exact ⟨_, .invalid hrun hop⟩
  · exact ⟨_, .halted hrun⟩

theorem midStep_of_step {t : State} (h : step s = .next t) : ∃ u, MidStep s u ∧ t = u.endStep := by
  obtain ⟨u, hmid, hstep⟩ := exists_midStep s
  exact ⟨u, hmid, Outcome.next.inj (h.symm.trans hstep)⟩

end Step

/-- Settles O6: a step of an instruction is what it leaves and what ends the step, by the status it leaves. -/
theorem stepRunsTheDecodedInstruction : Obligations.StepRunsTheDecodedInstruction := by
  intro s t i hrun hdecode hexec
  have hstep : step s = .next t.endStep := by rw [step_of_decodes hrun hdecode, after_of_exec hexec]; rfl
  refine ⟨fun ht => ?_, fun ht => ?_⟩
  · rw [hstep, State.endStep_running ht]
    rfl
  · rw [hstep, State.endStep_halted ht]
    rfl

/-- Settles O7: each address is masked by the read, and the word is its two bytes one after the other. -/
theorem fetchIsBigEndianAndMasked : Obligations.FetchIsBigEndianAndMasked := by
  intro s
  rw [State.memRead_mask, State.memRead_mask, State.fetch, bytesToOpcode, toNat_append_eq_add]
  omega

/-- Settles O8: both give a next state by name. -/
theorem everyInstructionAndStepCompletes : Obligations.EveryInstructionAndStepCompletes :=
  ⟨fun i s => ⟨_, exec_eq_next i s⟩, fun s => (exists_midStep s).elim fun u h => ⟨u.endStep, h.2⟩⟩

/-- Settles O9: a halted core's step empties the events and uses up the inputs. -/
theorem haltedCoreStaysHalted : Obligations.HaltedCoreStaysHalted := by
  intro s h
  refine ⟨s.beginStep.nextInputs, ?_, rfl, rfl⟩
  rw [step_of_halted h, State.endStep_halted (s := s.beginStep) h]

end Sys2Proof.Machine
end

section
/-!
The conditions and the timer gate: which instruction raises which condition, what a raising step keeps
(spec/60_exceptions.md R201 to R204), and what the gate does to a step that completes (R211).
-/

namespace Sys2Proof

/-! ### The instruction of a word, by the word -/

/-- A row of family F with `x` free: the words that decode to its instructions are those with its fixed bits (R91). -/
theorem decodes_familyF_iff {op : Word} {kk : Byte} (mk : Reg → Instr)
    (hmk : ∀ x, encodeWord (mk x) = formatXK 0xF#4 x kk) :
    (∃ x, decodeWord op = .ok (mk x)) ↔ op &&& 0xf0ff#16 = (0xF#4 ++ 0#4) ++ kk := by
  simp only [decodeWord_eq_ok_iff, hmk]
  constructor
  · rintro ⟨x, rfl⟩
    exact formatXK_mask_X 0xF#4 x kk
  · intro h
    have hvalue : (0xF#4 ++ 0#4) ++ kk = formatXK 0xF#4 0 kk := rfl
    have hf : fieldF op = 0xF#4 :=
      (extractLsb'_eq_of_and_eq (h.trans hvalue) rfl).trans (formatXK_f 0xF#4 0 kk)
    have hkk : fieldKK op = kk := (extractLsb'_eq_of_and_eq (h.trans hvalue) rfl).trans (formatXK_kk 0xF#4 0 kk)
    exact ⟨fieldX op, (formatXK_of_fieldKK hf hkk).symm⟩

end Sys2Proof

namespace Sys2Proof.Machine

/-! ### Which instruction raises which condition -/

section Conditions

variable {s : State}

theorem after_status_eq_exited_iff (hrun : s.status = .running) (i : Instr) :
    (s.after i).status = .exited ↔ i = .exit := by
  cases i <;> simp [State.after, State.awaitKey, hrun]

theorem after_status_eq_unsupported_iff (hrun : s.status = .running) (i : Instr) :
    (s.after i).status = .unsupported ↔
      ∃ x, i = .unsupportedFx30 x ∨ i = .unsupportedFx75 x ∨ i = .unsupportedFx85 x := by
  cases i <;> simp [State.after, State.awaitKey, hrun]

theorem after_status_ne_invalid (hrun : s.status = .running) (i : Instr) (op : Word) :
    (s.after i).status ≠ .invalid op := by
  cases i <;> simp [State.after, State.awaitKey, hrun]

/-- An instruction that raises a condition does nothing else (R204). -/
theorem after_eq_raise (hrun : s.status = .running) {i : Instr} (h : (s.after i).status ≠ .running) :
    s.after i = s.raise (s.after i).status := by
  cases i with
  | exit | unsupportedFx30 x | unsupportedFx75 x | unsupportedFx85 x => rfl
  | sys101 => exact absurd rfl h
  | _ => exact absurd hrun h

theorem endStep_status (s : State) : s.endStep.status = s.status := by rw [State.endStep_frame]

end Conditions

/-! ### The conditions of a step -/

theorem midStep_exited_iff {s u : State} (hrun : s.status = .running) (hmid : MidStep s u) :
    u.status = .exited ↔ s.fetch = 0x00FD#16 := by
  cases hmid with
  | instr _ hdecode =>
    rw [after_status_eq_exited_iff (s := s.beginStep) hrun, decodeWord_eq_ok_iff.mp hdecode]
    exact ⟨congrArg encodeWord, encodeWord_injective (j := .exit)⟩
  | invalid _ hop =>
    refine iff_of_false nofun fun hfetch => ?_
    rw [hfetch] at hop
    exact Bool.false_ne_true (hop.symm.trans (opcodeWellFormed_encodeWord .exit))
  | halted h => exact absurd hrun h

theorem midStep_unsupported_iff {s u : State} (hrun : s.status = .running) (hmid : MidStep s u) :
    u.status = .unsupported ↔ ∃ x, decodeWord s.fetch = .ok (.unsupportedFx30 x) ∨
      decodeWord s.fetch = .ok (.unsupportedFx75 x) ∨ decodeWord s.fetch = .ok (.unsupportedFx85 x) := by
  cases hmid with
  | instr _ hdecode =>
    rw [after_status_eq_unsupported_iff (s := s.beginStep) hrun, hdecode]
    simp only [Except.ok.injEq]
  | invalid _ hop =>
    rw [decodeWord_of_not_opcodeWellFormed hop]
    exact iff_of_false nofun (by simp)
  | halted h => exact absurd hrun h

theorem faulted_iff (s : State) : s.faulted = true ↔ s.status ≠ .running ∧ s.status ≠ .exited := by
  rw [State.faulted]
  cases s.status <;> simp

/-- Settles O10: an instruction that raises does nothing else, and no more does an invalid opcode; the gate does not run
then. -/
theorem raisingStepChangesOnlyStatus : Obligations.RaisingStepChangesOnlyStatus := by
  intro s t hrun hstep hraises
  obtain ⟨u, hmid, rfl⟩ := midStep_of_step hstep
  rw [endStep_status] at hraises
  rw [State.endStep_halted hraises]
  cases hmid with
  | instr _ _ =>
    rw [after_eq_raise (s := s.beginStep) hrun hraises]
    rfl
  | invalid _ _ => rfl
  | halted h => exact absurd hrun h

/-- Settles O11: no instruction leaves this status, and an opcode of no row leaves no other. -/
theorem invalidRaisedExactlyForUnlistedOpcodes : Obligations.InvalidRaisedExactlyForUnlistedOpcodes := by
  intro s hrun
  obtain ⟨u, hmid, hstep⟩ := exists_midStep s
  refine ⟨u.endStep, hstep, ?_⟩
  rw [endStep_status]
  cases hmid with
  | instr _ hdecode =>
    have hop : opcodeWellFormed s.fetch = true := decodes_iff_opcodeWellFormed.mp ⟨_, hdecode⟩
    exact ⟨fun hno => absurd (hop.symm.trans hno) nofun, fun op h =>
      absurd h (after_status_ne_invalid (s := s.beginStep) hrun _ op)⟩
  | invalid _ hop =>
    refine ⟨fun _ => ⟨rfl, rfl⟩, fun op h => ?_⟩
    exact ⟨(Status.invalid.inj h).symm, hop⟩
  | halted h => exact absurd hrun h

/-- Settles O12: the three constructors are the words with their rows' fixed bits. -/
theorem unsupportedRaisedExactlyForThreeEncodings : Obligations.UnsupportedRaisedExactlyForThreeEncodings := by
  intro s hrun
  obtain ⟨u, hmid, hstep⟩ := exists_midStep s
  refine ⟨u.endStep, hstep, ?_⟩
  rw [endStep_status, midStep_unsupported_iff hrun hmid]
  simp only [exists_or]
  exact or_congr (decodes_familyF_iff .unsupportedFx30 fun _ => rfl)
    (or_congr (decodes_familyF_iff .unsupportedFx75 fun _ => rfl) (decodes_familyF_iff .unsupportedFx85 fun _ => rfl))

/-- Settles O13: the status is `EXITED` exactly for that opcode, and a fault is any other status but `RUNNING`. -/
theorem exitIsTheOnlyGoodEnd : Obligations.ExitIsTheOnlyGoodEnd := by
  intro s hrun
  obtain ⟨u, hmid, hstep⟩ := exists_midStep s
  have hexit : u.endStep.goodEnd ↔ s.fetch = 0x00FD#16 := by
    rw [State.goodEnd, endStep_status]
    exact midStep_exited_iff hrun hmid
  exact ⟨u.endStep, hstep, hexit, (faulted_iff _).trans (and_congr_right' (not_congr hexit))⟩

/-! ### The timer gate (R211) -/

/-- Settles O14: the step ends in the gate, whose timers go down on a tick and whose tone stops where `ST` was 1. -/
theorem timerGateEndsEveryCompletedStep : Obligations.TimerGateEndsEveryCompletedStep := by
  intro s u i hrun hdecode hexec hurun
  have hstep : step s = .next u.timerGate.nextInputs := by
    rw [step_of_decodes hrun hdecode, ← State.endStep_running hurun, after_of_exec hexec]
    rfl
  refine ⟨_, hstep, fun htick => ?noTick, fun htick => ⟨?delay, ?sound, fun hst => ?stops, fun hst => ?goesOn⟩,
    fun _ _ => rfl, rfl, rfl, ⟨rfl, rfl⟩, fun _ => rfl, ⟨rfl, rfl, fun _ _ => rfl⟩, ⟨rfl, rfl⟩, rfl, rfl⟩
  case noTick => simp [htick, timerAfter, soundStops]
  case delay => simp [htick, timerAfter_toNat]
  case sound => simp [htick, timerAfter_toNat]
  case stops => simp [(soundStops_iff _ _).mpr ⟨htick, hst⟩]
  case goesOn =>
    have hno : ¬soundStops u.input.tick u.st = true := fun h => hst ((soundStops_iff _ _).mp h).2
    simp [hno]

end Sys2Proof.Machine
end

section
/-!
What each instruction may write, field by field: the next `PC` (spec/40_control_flow.md R100), the timers over a step
(spec/60_exceptions.md R211), the call stack, `I`, memory, the picture and the flag (spec/10_state.md R21 to R33).
-/

namespace Sys2Proof.Machine

/-! ### The next `PC` -/

/-- The key index is the low 4 bits of the register (spec/41_skips.md R125). -/
theorem State.keyDown_eq (s : State) (x : Reg) :
    s.keyDown x = s.input.keys.getLsbD ((s.reg x).toNat % 16) := by
  have hmask : (s.reg x &&& 0xF).toNat = (s.reg x).toNat % 16 :=
    (BitVec.toNat_and _ _).trans (Nat.and_two_pow_sub_one_eq_mod _ 4)
  rw [State.keyDown, hmask]

theorem wide_toNat (b : Byte) : (wide b).toNat = b.toNat := BitVec.toNat_setWidth_of_le (by decide)

/-- The offset of `Bnnn` cannot reach 65536 (R104). -/
theorem immAddr_add_wide_toNat (nnn : Imm12) (b : Byte) : (immAddr nnn + wide b).toNat = nnn.toNat + b.toNat := by
  rw [BitVec.toNat_add, immAddr_toNat, wide_toNat]
  have hnnn := nnn.isLt
  have hb := b.isLt
  omega

theorem lowestKey_eq_none_iff {keys : BitVec 16} : lowestKey keys = none ↔ keys = 0 := by
  rw [lowestKey, List.find?_eq_none]
  constructor
  · intro h
    apply BitVec.eq_of_getLsbD_eq
    intro k hk
    rw [BitVec.ofNat_eq_ofNat, BitVec.getLsbD_zero]
    exact eq_false_of_ne_true (h ⟨k, hk⟩ (List.mem_finRange _))
  · rintro rfl k -
    simp

theorem State.awaitKey_pc (x : Reg) (s : State) :
    (s.awaitKey x).pc = if s.input.keys = 0 then s.pc else s.pc + 2 := by
  cases h : lowestKey s.input.keys with
  | none => rw [State.awaitKey_of_none h, if_pos (lowestKey_eq_none_iff.mp h)]
  | some k =>
    have hkeys : s.input.keys ≠ 0 := fun h0 => by
      rw [lowestKey_eq_none_iff.mpr h0] at h
      cases h
    rw [State.awaitKey_of_some h, if_neg hkeys, State.advance_pc, State.setReg_pc]

/-- Settles O18, instruction by instruction: the skips by their conditions, the jumps by their targets. -/
theorem everyNextPcIsListed : Obligations.EveryNextPcIsListed := by
  intro i s t hexec
  obtain rfl := after_of_exec hexec
  cases i with
  | seImm x kk => simp [State.after]
  | sneImm x kk => simp [State.after]
  | seReg x y => simp [State.after]
  | sneReg x y => simp [State.after]
  | skp x => simp [State.after, State.keyDown_eq]
  | sknp x =>
    simp only [State.after, State.skipIf_pc, ← State.keyDown_eq]
    cases s.keyDown x <;> rfl
  | jp nnn => exact immAddr_toNat nnn
  | call nnn => exact immAddr_toNat nnn
  | jpV0 nnn => exact immAddr_add_wide_toNat nnn (s.reg 0)
  | ldVxK x => exact s.awaitKey_pc x
  | _ => rfl

/-! ### The timers -/

section Frames

variable {s : State} {i : Instr}

/-- No instruction changes what is not the machine's (log 1, log 2). -/
theorem after_keepsSession (i : Instr) (s : State) : KeepsSession s (s.after i) := by
  cases i with
  | _ => exact ⟨rfl, rfl, rfl⟩

theorem after_input (i : Instr) (s : State) : (s.after i).input = s.input := by
  obtain ⟨-, hinputs, hcount⟩ := after_keepsSession i s
  rw [State.input, hinputs, hcount, State.input]

theorem after_dt (hreset : i ≠ .sys101) (hwrite : ∀ x, i ≠ .ldDtVx x) : (s.after i).dt = s.dt := by
  cases i with
  | sys101 => exact absurd rfl hreset
  | ldDtVx x => exact absurd rfl (hwrite x)
  | _ => rfl

theorem after_st_tone (hreset : i ≠ .sys101) (hwrite : ∀ x, i ≠ .ldStVx x) :
    (s.after i).st = s.st ∧ (s.after i).tone = s.tone := by
  cases i with
  | sys101 => exact absurd rfl hreset
  | ldStVx x => exact absurd rfl (hwrite x)
  | _ => exact ⟨rfl, rfl⟩

theorem endStep_dt_toNat (s : State) :
    s.endStep.dt.toNat = if s.status = .running ∧ s.input.tick = true then s.dt.toNat - 1 else s.dt.toNat := by
  by_cases hrun : s.status = .running
  · simp [State.endStep_running hrun, timerAfter_toNat, hrun]
  · simp [State.endStep_halted hrun, hrun]

theorem endStep_st_toNat (s : State) :
    s.endStep.st.toNat = if s.status = .running ∧ s.input.tick = true then s.st.toNat - 1 else s.st.toNat := by
  by_cases hrun : s.status = .running
  · simp [State.endStep_running hrun, timerAfter_toNat, hrun]
  · simp [State.endStep_halted hrun, hrun]

/-- The gate brings a timer to 0 from 1 only, and only on a tick (R211). -/
theorem soundStops_iff_timerAfter (tick : Bool) (b : Byte) :
    soundStops tick b = true ↔ b ≠ 0 ∧ timerAfter tick b = 0 := by
  cases tick with
  | false => simp [soundStops, timerAfter]
  | true =>
    by_cases hb : b = 0#8
    · simp [soundStops, hb]
    · simp [soundStops, timerAfter, hb]

theorem endStep_tone (s : State) :
    s.endStep.tone = if s.st ≠ 0 ∧ s.endStep.st = 0 then false else s.tone := by
  by_cases hrun : s.status = .running
  · rw [State.endStep_running hrun]
    exact if_congr (soundStops_iff_timerAfter s.input.tick s.st) rfl rfl
  · rw [State.endStep_halted hrun, State.nextInputs_tone, State.nextInputs_st, if_neg fun h => h.1 h.2]

end Frames

section MidStep

variable {s u : State}

theorem midStep_input (hmid : MidStep s u) : u.input = s.input := by
  cases hmid with
  | instr _ _ => exact after_input _ s.beginStep
  | invalid _ _ => rfl
  | halted _ => rfl

theorem midStep_dt (hmid : MidStep s u) (hreset : s.fetch ≠ 0x0101#16)
    (hwrite : s.fetch &&& 0xF0FF#16 ≠ 0xF015#16) : u.dt = s.dt := by
  cases hmid with
  | instr _ hdecode =>
    refine after_dt (s := s.beginStep) ?_ fun x hi => hwrite ?_
    · rintro rfl
      exact hreset (decodeWord_eq_ok_iff.mp hdecode)
    · exact (decodes_familyF_iff .ldDtVx fun _ => rfl).mp ⟨x, hi ▸ hdecode⟩
  | invalid _ _ => rfl
  | halted _ => rfl

theorem midStep_st_tone (hmid : MidStep s u) (hreset : s.fetch ≠ 0x0101#16)
    (hwrite : s.fetch &&& 0xF0FF#16 ≠ 0xF018#16) : u.st = s.st ∧ u.tone = s.tone := by
  cases hmid with
  | instr _ hdecode =>
    refine after_st_tone (s := s.beginStep) ?_ fun x hi => hwrite ?_
    · rintro rfl
      exact hreset (decodeWord_eq_ok_iff.mp hdecode)
    · exact (decodes_familyF_iff .ldStVx fun _ => rfl).mp ⟨x, hi ▸ hdecode⟩
  | invalid _ _ => exact ⟨rfl, rfl⟩
  | halted _ => exact ⟨rfl, rfl⟩

end MidStep

/-- Settles O19: no other instruction writes `DT`, and the gate takes one off on a tick. -/
theorem delayTimerOnlyCountsDown : Obligations.DelayTimerOnlyCountsDown := by
  intro s t hstep hwrite hreset
  obtain ⟨u, hmid, rfl⟩ := midStep_of_step hstep
  rw [endStep_dt_toNat, endStep_status, midStep_input hmid, midStep_dt hmid hreset hwrite]

/-- Settles O20: no other instruction writes `ST` or the tone, and the gate stops the tone where it brings `ST` to 0. -/
theorem soundTimerOnlyCountsDown : Obligations.SoundTimerOnlyCountsDown := by
  intro s t hstep hwrite hreset
  obtain ⟨u, hmid, rfl⟩ := midStep_of_step hstep
  obtain ⟨hst, htone⟩ := midStep_st_tone hmid hreset hwrite
  constructor
  · rw [endStep_st_toNat, endStep_status, midStep_input hmid, hst]
  · rw [endStep_tone, hst, htone]

/-! ### Call stack, index register and memory -/

/-- Settles O21, instruction by instruction: every other update leaves both fields alone. -/
theorem onlyCallReturnAndResetMoveTheStack : Obligations.OnlyCallReturnAndResetMoveTheStack := by
  intro i s t hexec hreset hcall
  obtain rfl := after_of_exec hexec
  cases i with
  | sys101 => exact absurd rfl hreset
  | call nnn => exact absurd rfl (hcall nnn)
  | ret => exact ⟨rfl, fun hret => absurd rfl hret⟩
  | _ => exact ⟨rfl, fun _ => rfl⟩

/-- Settles O22, instruction by instruction: every other update leaves `I` alone. -/
theorem onlyIndexInstructionsChangeI : Obligations.OnlyIndexInstructionsChangeI := by
  intro i s t hexec hreset hldI haddI hldF
  obtain rfl := after_of_exec hexec
  cases i with
  | sys101 => exact absurd rfl hreset
  | ldI nnn => exact absurd rfl (hldI nnn)
  | addI x => exact absurd rfl (haddI x)
  | ldF x => exact absurd rfl (hldF x)
  | _ => rfl

/-- Settles O23, instruction by instruction: every other update leaves memory, and what it reads as, alone. -/
theorem onlyStoresAndResetChangeMemory : Obligations.OnlyStoresAndResetChangeMemory := by
  intro i s t hexec hreset hldB hstore
  obtain rfl := after_of_exec hexec
  cases i with
  | sys101 => exact absurd rfl hreset
  | ldB x => exact absurd rfl (hldB x)
  | storeRegs x => exact absurd rfl (hstore x)
  | _ => exact fun _ => rfl

/-! ### The picture -/

/-- The instructions that may change the picture: the display instructions and the soft reset (R30 to R33). -/
def drawsOn : Instr → Bool
  | .scd _ | .cls | .scr | .scl | .low | .high | .drw _ _ _ | .sys101 => true
  | _ => false

theorem after_keepsPicture {i : Instr} (h : drawsOn i = false) (s : State) : KeepsPicture s (s.after i) := by
  cases i with
  | scd | cls | scr | scl | low | high | drw | sys101 => cases h
  | _ => exact ⟨rfl, rfl, fun _ _ => rfl⟩

theorem after_dirty_of_drawsOn {i : Instr} (h : drawsOn i = true) (s : State) : (s.after i).dirty = true := by
  cases i with
  | scd | cls | scr | scl | low | high | drw | sys101 => rfl
  | _ => cases h

theorem after_width {i : Instr} (hreset : i ≠ .sys101) (hlow : i ≠ .low) (hhigh : i ≠ .high) (s : State) :
    (s.after i).width = s.width := by
  cases i with
  | sys101 => exact absurd rfl hreset
  | low => exact absurd rfl hlow
  | high => exact absurd rfl hhigh
  | _ => rfl

theorem after_keepsColours {i : Instr} (hreset : i ≠ .sys101) (hcolours : i ≠ .sys102) (s : State) :
    KeepsColours s (s.after i) := by
  cases i with
  | sys101 => exact absurd rfl hreset
  | sys102 => exact absurd rfl hcolours
  | _ => exact ⟨rfl, rfl⟩

/-- Settles O24: what draws sets the dirty flag, what does not keeps the picture, and the colours have one writer beside
the reset. -/
theorem onlyDisplayInstructionsChangeThePicture : Obligations.OnlyDisplayInstructionsChangeThePicture := by
  intro i s t hexec
  obtain rfl := after_of_exec hexec
  refine ⟨fun hreset hcls hscr hscl hlow hhigh hscd hdrw => after_keepsPicture ?_ s,
    fun hreset hlow hhigh => after_width hreset hlow hhigh s,
    fun hreset hcolours => after_keepsColours hreset hcolours s, fun hdirty => ?_⟩
  · cases i with
    | sys101 | cls | scr | scl | low | high => contradiction
    | scd n => exact absurd rfl (hscd n)
    | drw x y n => exact absurd rfl (hdrw x y n)
    | _ => rfl
  · cases hdraws : drawsOn i with
    | true => exact after_dirty_of_drawsOn hdraws s
    | false => rw [(after_keepsPicture hdraws s).2.1, hdirty]

/-! ### The flag -/

theorem State.reg_setReg_advance_of_ne (s : State) {x r : Reg} (b : Byte) (h : r ≠ x) :
    (s.setReg x b).advance.reg r = s.reg r := by
  rw [State.advance_reg, State.reg_setReg, if_neg h]

theorem State.reg_setResultAndFlag_flagByte (s : State) (x : Reg) (result : Byte) (flag : Bool) :
    (s.setResultAndFlag x result (flagByte flag)).advance.reg 15 = 0 ∨
      (s.setResultAndFlag x result (flagByte flag)).advance.reg 15 = 1 := by
  rw [State.advance_reg, State.reg_setResultAndFlag_vf]
  exact flagByte_zero_or_one flag

theorem State.reg_awaitKey_of_ne (s : State) {x r : Reg} (h : r ≠ x) : (s.awaitKey x).reg r = s.reg r := by
  cases hkey : lowestKey s.input.keys with
  | none => rw [State.awaitKey_of_none hkey]
  | some k => rw [State.awaitKey_of_some hkey, s.reg_setReg_advance_of_ne _ h]

/-- Settles O25, instruction by instruction: the six write a flag byte last, and a register write elsewhere leaves
`VF`. -/
theorem flagIsWrittenByItsSixInstructionsOnly : Obligations.FlagIsWrittenByItsSixInstructionsOnly := by
  intro i s t hexec
  obtain rfl := after_of_exec hexec
  cases i with
  | addReg x y | sub x y | shr x y | subn x y | shl x y => exact s.reg_setResultAndFlag_flagByte x _ _
  | drw x y n =>
    show (State.setReg _ _ _).advance.reg 15 = 0 ∨ (State.setReg _ _ _).advance.reg 15 = 1
    rw [State.advance_reg, State.reg_setReg, if_pos (show (15 : Reg) = vf from rfl)]
    exact flagByte_zero_or_one _
  | ldImm x _ | addImm x _ | ldReg x _ | or x _ | and x _ | xor x _ | rnd x _ | ldVxDt x =>
    exact fun hx => s.reg_setReg_advance_of_ne _ hx.symm
  | ldVxK x => exact fun hx => s.reg_awaitKey_of_ne hx.symm
  | loadRegs x =>
    intro hx
    have hlast : ¬(15 : Reg) ≤ x := fun hle => hx (Fin.last_le_iff.mp hle)
    exact (State.reg_loadRegsTo s x _ 15).trans (if_neg hlast)
  | _ => rfl

end Sys2Proof.Machine
end

section
/-!
What every step keeps: the invariant (spec/10_state.md R28, spec/20_memory.md), the independence from `Refresh`
(spec/60_exceptions.md R214), and the agreement of the two drawing modes under the reset colours
(spec/45_display.md R181).
-/

namespace Sys2Proof.Machine

/-! ### The invariant -/

section Invariant

variable {s : State}

theorem State.inv_reset : State.reset.Inv where
  memory := rfl
  plane  := Plane.fill_wf resetWidth resetBg
  tone   := by decide

theorem State.Inv.restart (s : State) : s.restart.Inv where
  memory := rfl
  plane  := Plane.fill_wf resetWidth resetBg
  tone   := State.inv_reset.tone

theorem State.Inv.redraw_advance (h : s.Inv) (f : Nat → Nat → Byte) : (s.redraw f).advance.Inv :=
  ⟨h.memory, Plane.tabulate_wf s.width f, h.tone⟩

theorem State.Inv.after (h : s.Inv) (i : Instr) : (s.after i).Inv := by
  cases i with
  | scd | scr | scl => exact h.redraw_advance _
  | cls => exact ⟨h.memory, Plane.fill_wf s.width s.bg, h.tone⟩
  | low => exact ⟨h.memory, Plane.fill_wf .w64 s.bg, h.tone⟩
  | high => exact ⟨h.memory, Plane.fill_wf .w128 s.bg, h.tone⟩
  | drw => exact ⟨h.memory, plotAll_wf (pen := s.pen) h.plane _, h.tone⟩
  | ldB | storeRegs => exact ⟨Memory.store_wf h.memory _ _, h.plane, h.tone⟩
  | ldStVx => exact ⟨h.memory, h.plane, toneAfter_iff h.tone⟩
  | sys101 => exact State.Inv.restart s
  | _ => exact ⟨h.memory, h.plane, h.tone⟩

theorem State.Inv.endStep (h : s.Inv) : s.endStep.Inv := by
  by_cases hrun : s.status = .running
  · rw [State.endStep_running hrun]
    exact ⟨h.memory, h.plane, State.timerGate_tone_iff h.tone⟩
  · rw [State.endStep_halted hrun]
    exact ⟨h.memory, h.plane, h.tone⟩

theorem State.Inv.midStep {u : State} (h : s.Inv) (hmid : MidStep s u) : u.Inv := by
  have hbegin : s.beginStep.Inv := ⟨h.memory, h.plane, h.tone⟩
  cases hmid with
  | instr _ _ => exact hbegin.after _
  | invalid _ _ => exact ⟨h.memory, h.plane, h.tone⟩
  | halted _ => exact hbegin

end Invariant

/-- Settles O15: the instruction keeps the invariant, and so does what ends the step. -/
theorem stepKeepsTheInvariant : Obligations.StepKeepsTheInvariant := by
  intro s t h hstep
  obtain ⟨u, hmid, rfl⟩ := midStep_of_step hstep
  exact (h.midStep hmid).endStep

/-- Settles O16: an empty list and a filled plane are canonical, and the tone is off with `ST` at 0. -/
theorem resetMeetsTheInvariant : Obligations.ResetMeetsTheInvariant := State.inv_reset

/-- Settles O17: lining up inputs and refreshing touch no field of the invariant, and a reset brings its own. -/
theorem hostActionsKeepTheInvariant : Obligations.HostActionsKeepTheInvariant := by
  intro a s t h hact
  cases a with
  | step inp => exact stepKeepsTheInvariant (s.withInputs inp) t ⟨h.memory, h.plane, h.tone⟩ hact
  | refresh =>
    cases hact
    exact ⟨h.memory, h.plane, h.tone⟩
  | reset image =>
    cases hact
    exact State.Inv.restart _

/-! ### Independence from `Refresh` -/

/-- The state with the dirty flag at `d`. -/
def State.withDirty (d : Bool) (s : State) : State := { s with dirty := d }

/-- No instruction reads the dirty flag: it takes part in the next dirty flag alone. -/
theorem after_withDirty (i : Instr) (s : State) (d : Bool) :
    (s.withDirty d).after i = (s.after i).withDirty ((s.withDirty d).after i).dirty := by
  cases i with
  | _ => rfl

theorem endStep_withDirty (s : State) (d : Bool) : (s.withDirty d).endStep = s.endStep.withDirty d := by
  by_cases hrun : s.status = .running
  · rw [State.endStep_running hrun, State.endStep_running (s := s.withDirty d) hrun]
    rfl
  · rw [State.endStep_halted hrun, State.endStep_halted (s := s.withDirty d) hrun]
    rfl

theorem endStep_dirty (s : State) : s.endStep.dirty = s.dirty := by rw [State.endStep_frame]

/-- Refreshed before it, a step goes through the same states but for the dirty flag, which it sets nowhere else: the
refresh's events are emptied as the step begins. -/
theorem MidStep.refresh {s u : State} (hmid : MidStep s u) :
    ∃ d, MidStep s.refresh (u.withDirty d) ∧ (d = true → u.dirty = true) := by
  cases hmid with
  | @instr i hrun hdecode =>
    refine ⟨((s.beginStep.withDirty false).after i).dirty, ?_, fun hdirty => ?_⟩
    · rw [← after_withDirty]
      exact .instr (s := s.refresh) hrun hdecode
    · cases hdraws : drawsOn i with
      | true => exact after_dirty_of_drawsOn hdraws _
      | false =>
        obtain ⟨-, hkept, -⟩ := after_keepsPicture hdraws (s.beginStep.withDirty false)
        exact absurd (hkept.symm.trans hdirty) Bool.false_ne_true
  | invalid hrun hop => exact ⟨false, .invalid (s := s.refresh) hrun hop, nofun⟩
  | halted h => exact ⟨false, .halted (s := s.refresh) h, nofun⟩

/-- Settles O26: the two steps go through states that differ in the dirty flag alone, and the end of a step does not
read it. -/
theorem refreshIsInvisibleToTheCore : Obligations.RefreshIsInvisibleToTheCore := by
  intro s
  obtain ⟨u, hmid, hstep⟩ := exists_midStep s
  obtain ⟨d, hmid', hdirty⟩ := hmid.refresh
  refine ⟨u.endStep, (u.withDirty d).endStep, hstep, step_of_midStep hmid', ?_, ?_⟩
  · rw [endStep_withDirty]
    rfl
  · rw [endStep_dirty, endStep_dirty]
    exact hdirty

/-! ### The two drawing modes (R181) -/

/-- Every cell of the plane is 0 or 1. -/
def BinaryPlane (w : Width) (p : Cells) : Prop :=
  ∀ px py, px < w.cols → py < w.rows → Plane.get p (Plane.index w px py) = 0 ∨ Plane.get p (Plane.index w px py) = 1

/-- On a cell of 0 or 1 and under the reset colours both modes flip the cell and report what was lit. -/
theorem plotCell_binary {c : Byte} (hc : c = 0 ∨ c = 1) (mode : DrawMode) :
    plotCell mode 1 0 c = (if c = 0 then 1 else 0, decide (c = 1)) := by
  obtain rfl | rfl := hc <;> cases mode <;> decide

section Plot

variable {w : Width} {p : Cells}

theorem plot_binary_mode (hp : BinaryPlane w p) (mode mode' : DrawMode) (px py : Nat) :
    plot ⟨mode, 1, 0, w⟩ p px py = plot ⟨mode', 1, 0, w⟩ p px py := by
  unfold plot
  by_cases hon : w.onPlane px py = true
  · obtain ⟨hx, hy⟩ := Width.onPlane_iff.mp hon
    simp only [plotCell_binary (hp px py hx hy)]
  · simp only [if_neg hon]

theorem plot_binary (hwf : Plane.wf w p = true) (hp : BinaryPlane w p) (mode : DrawMode) (px py : Nat) :
    BinaryPlane w (plot ⟨mode, 1, 0, w⟩ p px py).1 := by
  intro qx qy hx hy
  rw [plot_get (pen := ⟨mode, 1, 0, w⟩) hwf px py hx hy, plotCell_binary (hp qx qy hx hy)]
  split
  · split
    · exact .inr rfl
    · exact .inl rfl
  · exact hp qx qy hx hy

theorem plotAll_binary (hwf : Plane.wf w p = true) (hp : BinaryPlane w p) (mode : DrawMode) (ps : List (Nat × Nat)) :
    BinaryPlane w (plotAll ⟨mode, 1, 0, w⟩ ps p).1 := by
  induction ps generalizing p with
  | nil => exact hp
  | cons q rest ih => exact ih (plot_wf (pen := ⟨mode, 1, 0, w⟩) hwf q.1 q.2) (plot_binary hwf hp mode q.1 q.2)

theorem plotAll_binary_mode (hwf : Plane.wf w p = true) (hp : BinaryPlane w p) (mode mode' : DrawMode)
    (ps : List (Nat × Nat)) : plotAll ⟨mode, 1, 0, w⟩ ps p = plotAll ⟨mode', 1, 0, w⟩ ps p := by
  induction ps generalizing p with
  | nil => rfl
  | cons q rest ih =>
    have hrest := ih (plot_wf (pen := ⟨mode', 1, 0, w⟩) hwf q.1 q.2) (plot_binary hwf hp mode' q.1 q.2)
    simp only [plotAll, plot_binary_mode hp mode mode' q.1 q.2, hrest]

end Plot

section Modes

variable {s : State}

theorem State.Monochrome.binaryPlane (h : s.Monochrome) : BinaryPlane s.width s.plane := h.cells

theorem State.Monochrome.pen_eq (h : s.Monochrome) : s.pen = ⟨s.config.drawMode, 1, 0, s.width⟩ := by
  rw [State.pen, h.fg, h.bg]

theorem plotAll_withDrawMode (hwf : Plane.wf s.width s.plane = true) (h : s.Monochrome) (mode : DrawMode)
    (ps : List (Nat × Nat)) :
    plotAll (s.withDrawMode mode).pen ps s.plane = plotAll s.pen ps s.plane := by
  have hpen : (s.withDrawMode mode).pen = ⟨mode, 1, 0, s.width⟩ :=
    State.Monochrome.pen_eq (s := s.withDrawMode mode) ⟨h.fg, h.bg, h.cells⟩
  rw [hpen, h.pen_eq]
  exact plotAll_binary_mode hwf h.binaryPlane mode _ ps

/-- A sprite's plane and collision bit put into the state (R180). -/
def State.withDrawing (drawing : Cells × Bool) (s : State) : State :=
  ({ s with plane := drawing.1, dirty := true }.setReg vf (flagByte drawing.2)).advance

theorem after_drw (x y : Reg) (n : Nibble) (s : State) :
    s.after (.drw x y n) = s.withDrawing (plotAll s.pen (s.drawnPixels x y n) s.plane) := rfl

/-- No sprite's pixels depend on the mode. -/
theorem State.drawnPixels_withDrawMode (mode : DrawMode) (x y : Reg) (n : Nibble) (s : State) :
    (s.withDrawMode mode).drawnPixels x y n = s.drawnPixels x y n := rfl

theorem after_drw_withDrawMode (hwf : Plane.wf s.width s.plane = true) (h : s.Monochrome) (mode : DrawMode) (x y : Reg)
    (n : Nibble) : (s.withDrawMode mode).after (.drw x y n) = (s.after (.drw x y n)).withDrawMode mode := by
  rw [after_drw, after_drw, State.drawnPixels_withDrawMode, ← plotAll_withDrawMode hwf h mode]
  rfl

/-- Under the reset colours no instruction but the draw reads the mode, and the draw does the same in both. -/
theorem after_withDrawMode (hwf : Plane.wf s.width s.plane = true) (h : s.Monochrome) (mode : DrawMode) (i : Instr) :
    (s.withDrawMode mode).after i = (s.after i).withDrawMode mode := by
  cases i with
  | drw x y n => exact after_drw_withDrawMode hwf h mode x y n
  | _ => rfl

theorem endStep_withDrawMode (s : State) (mode : DrawMode) :
    (s.withDrawMode mode).endStep = s.endStep.withDrawMode mode := by
  by_cases hrun : s.status = .running
  · rw [State.endStep_running hrun, State.endStep_running (s := s.withDrawMode mode) hrun]
    rfl
  · rw [State.endStep_halted hrun, State.endStep_halted (s := s.withDrawMode mode) hrun]
    rfl

theorem MidStep.withDrawMode {u : State} (hwf : Plane.wf s.width s.plane = true) (h : s.Monochrome) (hmid : MidStep s u)
    (mode : DrawMode) : MidStep (s.withDrawMode mode) (u.withDrawMode mode) := by
  cases hmid with
  | instr hrun hdecode =>
    rw [← after_withDrawMode (s := s.beginStep) hwf ⟨h.fg, h.bg, h.cells⟩]
    exact .instr (s := s.withDrawMode mode) hrun hdecode
  | invalid hrun hop => exact .invalid (s := s.withDrawMode mode) hrun hop
  | halted h => exact .halted (s := s.withDrawMode mode) h

end Modes

/-- Settles O27: the steps in the two modes go through states that differ in the mode alone. -/
theorem drawModesAgreeUnderResetColours : Obligations.DrawModesAgreeUnderResetColours := by
  intro s hwf h
  obtain ⟨u, hmid, -⟩ := exists_midStep s
  have hstep (mode : DrawMode) : step (s.withDrawMode mode) = .next (u.endStep.withDrawMode mode) := by
    rw [step_of_midStep (hmid.withDrawMode hwf h mode), endStep_withDrawMode]
  exact ⟨u.endStep, hstep .overwrite, hstep .xor⟩

/-! ### The reset colours last (R181) -/

section Monochrome

variable {s t : State}

theorem State.Monochrome.of_keeps (h : s.Monochrome) (hpicture : KeepsPicture s t) (hcolours : KeepsColours s t) :
    t.Monochrome := by
  obtain ⟨hwidth, -, hcell⟩ := hpicture
  obtain ⟨hfg, hbg⟩ := hcolours
  refine ⟨hfg.trans h.fg, hbg.trans h.bg, fun px py hx hy => ?_⟩
  rw [hwidth] at hx hy
  rw [hcell]
  exact h.cells px py hx hy

theorem State.Monochrome.redraw_advance (h : s.Monochrome) {f : Nat → Nat → Byte}
    (hf : ∀ px py, px < s.width.cols → py < s.width.rows → f px py = 0 ∨ f px py = 1) :
    (s.redraw f).advance.Monochrome := by
  refine ⟨h.fg, h.bg, fun px py hx hy => ?_⟩
  rw [State.advance_cell, s.cell_redraw f hx hy]
  exact hf px py hx hy

/-- A scroll brings live cells, or the background byte, which is 0. -/
theorem State.Monochrome.scroll (h : s.Monochrome) {c : Prop} [Decidable c] {px py : Nat}
    (hon : c → px < s.width.cols ∧ py < s.width.rows) :
    (if c then s.cell px py else s.bg) = 0 ∨ (if c then s.cell px py else s.bg) = 1 := by
  split
  · exact h.cells px py (hon ‹_›).1 (hon ‹_›).2
  · exact .inl h.bg

theorem State.monochrome_reset : State.reset.Monochrome :=
  ⟨rfl, rfl, fun _ _ hx hy => .inl (Plane.get_fill 0 hx hy)⟩

theorem State.Monochrome.after (hwf : Plane.wf s.width s.plane = true) (h : s.Monochrome) {i : Instr}
    (hcolours : i ≠ .sys102) : (s.after i).Monochrome := by
  cases hdraws : drawsOn i with
  | false =>
    have hreset : i ≠ .sys101 := fun hi => by rw [hi] at hdraws; cases hdraws
    exact h.of_keeps (after_keepsPicture hdraws s) (after_keepsColours hreset hcolours s)
  | true =>
    cases i with
    | scd n => exact h.redraw_advance fun px py hx hy => h.scroll fun _ => ⟨hx, by omega⟩
    | scr => exact h.redraw_advance fun px py hx hy => h.scroll fun _ => ⟨by omega, hy⟩
    | scl => exact h.redraw_advance fun px py hx hy => h.scroll fun hin => ⟨hin, hy⟩
    | cls => exact ⟨h.fg, h.bg, fun px py hx hy => .inl ((s.cell_clear hx hy).trans h.bg)⟩
    | low => exact ⟨h.fg, h.bg, fun px py hx hy => .inl ((s.cell_resize .w64 hx hy).trans h.bg)⟩
    | high => exact ⟨h.fg, h.bg, fun px py hx hy => .inl ((s.cell_resize .w128 hx hy).trans h.bg)⟩
    | drw x y n =>
      refine ⟨h.fg, h.bg, ?_⟩
      rw [after_drw, h.pen_eq]
      exact plotAll_binary hwf h.binaryPlane _ _
    | sys101 => exact ⟨rfl, rfl, State.monochrome_reset.cells⟩
    | _ => cases hdraws

theorem State.Monochrome.endStep (h : s.Monochrome) : s.endStep.Monochrome := by
  rw [State.endStep_frame]
  exact ⟨h.fg, h.bg, h.cells⟩

end Monochrome

/-- Settles O28: the reset state meets the condition, every instruction but `SYS 0x102` keeps it, and so does the end of
a step. -/
theorem resetColoursLastUntilSys102 : Obligations.ResetColoursLastUntilSys102 := by
  refine ⟨State.monochrome_reset, fun s t hinv h hfetch hstep => ?_⟩
  obtain ⟨u, hmid, rfl⟩ := midStep_of_step hstep
  suffices hu : u.Monochrome from hu.endStep
  have hbegin : s.beginStep.Monochrome := ⟨h.fg, h.bg, h.cells⟩
  cases hmid with
  | instr _ hdecode =>
    refine State.Monochrome.after (s := s.beginStep) hinv.plane hbegin ?_
    rintro rfl
    exact hfetch (decodeWord_eq_ok_iff.mp hdecode)
  | invalid _ _ => exact ⟨h.fg, h.bg, h.cells⟩
  | halted _ => exact hbegin

end Sys2Proof.Machine
end

section
/-!
Instructions that write registers, `PC` or `I` alone: load, arithmetic, logic and random (spec/42_alu.md), the skips
(spec/41_skips.md), and the index register (spec/43_index_memory.md).
-/

namespace Sys2Proof.Machine

/-! ### What a register write and the next `PC` leave unchanged -/

/-- Registers and `PC` replaced, and no other field: only the registers that differ are changed. -/
theorem changesOnlyRegs_of_keepsRegs {D : List Reg} {s : State} {v : Vector Byte 16} {pc : Word}
    (h : KeepsRegs D s { s with v := v, pc := pc }) : ChangesOnlyRegs D s { s with v := v, pc := pc } :=
  ⟨h, rfl, ⟨rfl, rfl⟩, ⟨rfl, rfl, rfl⟩, fun _ => rfl, ⟨rfl, rfl, fun _ _ => rfl⟩, ⟨rfl, rfl⟩, ⟨rfl, rfl⟩,
    ⟨rfl, rfl, rfl⟩⟩

theorem State.changesOnlyRegs_setReg_advance (s : State) (x : Reg) (b : Byte) :
    ChangesOnlyRegs [x] s (s.setReg x b).advance :=
  changesOnlyRegs_of_keepsRegs fun _ hr => s.reg_setReg_advance_of_ne b (List.ne_of_not_mem_cons hr)

theorem State.changesOnlyRegs_nil_skipIf (s : State) (c : Bool) : ChangesOnlyRegs [] s (s.skipIf c) :=
  changesOnlyRegs_of_keepsRegs fun _ _ => rfl

theorem State.reg_setReg_advance_self (s : State) (x : Reg) (b : Byte) : (s.setReg x b).advance.reg x = b := by
  rw [State.advance_reg, State.reg_setReg, if_pos rfl]

/-! ### Load, copy, arithmetic and logic -/

/-- Settles O29: each writes its one value into `V[x]`. -/
theorem loadCopyAndAddImmediateResults : Obligations.LoadCopyAndAddImmediateResults := by
  refine ⟨fun x kk s => ⟨_, exec_eq_next (.ldImm x kk) s, s.reg_setReg_advance_self x kk, rfl,
      s.changesOnlyRegs_setReg_advance x _⟩,
    fun x kk s => ⟨_, exec_eq_next (.addImm x kk) s, ?sum, rfl, s.changesOnlyRegs_setReg_advance x _⟩,
    fun x y s => ⟨_, exec_eq_next (.ldReg x y) s, s.reg_setReg_advance_self x (s.reg y), rfl,
      s.changesOnlyRegs_setReg_advance x _⟩⟩
  case sum => rw [State.after, s.reg_setReg_advance_self, BitVec.toNat_add]

/-- Settles O30: each writes the word of its bits into `V[x]`. -/
theorem logicResults : Obligations.LogicResults := by
  intro x y s
  refine ⟨⟨_, exec_eq_next (.or x y) s, fun k _ => ?or, rfl, s.changesOnlyRegs_setReg_advance x _⟩,
    ⟨_, exec_eq_next (.and x y) s, fun k _ => ?and, rfl, s.changesOnlyRegs_setReg_advance x _⟩,
    ⟨_, exec_eq_next (.xor x y) s, fun k _ => ?xor, rfl, s.changesOnlyRegs_setReg_advance x _⟩⟩
  case or => rw [State.after, s.reg_setReg_advance_self, BitVec.getLsbD_or]
  case and => rw [State.after, s.reg_setReg_advance_self, BitVec.getLsbD_and]
  case xor => rw [State.after, s.reg_setReg_advance_self, BitVec.getLsbD_xor]

/-- Settles O33: the subtraction with its operands exchanged, and its flag over the result. -/
theorem subnWritesDifferenceThenNoBorrow : Obligations.SubnWritesDifferenceThenNoBorrow := by
  intro x y s
  refine ⟨_, exec_eq_next (.subn x y) s, fun hx => ?difference, ?noBorrow, rfl,
    s.changesOnlyRegs_setResultAndFlag_advance x _ _⟩
  case difference =>
    rw [State.after, State.advance_reg, s.reg_setResultAndFlag_result _ _ hx, byte_toNat_sub_eq_emod]
  case noBorrow => rw [State.after, State.advance_reg, State.reg_setResultAndFlag_vf, noBorrowFlag_eq]

/-! ### Shifts -/

theorem State.shiftSource_eq {s : State} {x y : Reg} {a : Byte} (hvx : s.config.shiftSrc = .vx → a = s.reg x)
    (hvy : s.config.shiftSrc = .vy → a = s.reg y) : s.shiftSource x y = a := by
  unfold State.shiftSource
  split
  · exact (hvx ‹_›).symm
  · exact (hvy ‹_›).symm

theorem flagByte_toNat (b : Bool) : (flagByte b).toNat = b.toNat := by cases b <;> rfl

theorem shiftedOutRight_toNat (a : Byte) : (shiftedOutRight a).toNat = a.toNat % 2 := by
  rw [shiftedOutRight, flagByte_toNat, BitVec.getLsbD, Nat.toNat_testBit, Nat.pow_zero, Nat.div_one]

theorem shiftedOutLeft_toNat (a : Byte) : (shiftedOutLeft a).toNat = a.toNat / 128 := by
  rw [shiftedOutLeft, flagByte_toNat, BitVec.getLsbD, Nat.toNat_testBit]
  omega

theorem toNat_shiftRight_one (a : Byte) : (a >>> 1).toNat = a.toNat / 2 := by
  rw [BitVec.toNat_ushiftRight, Nat.shiftRight_one]

theorem toNat_shiftLeft_one (a : Byte) : (a <<< 1).toNat = (2 * a.toNat) % 256 := by
  rw [BitVec.toNat_shiftLeft, Nat.shiftLeft_eq, Nat.pow_one, Nat.mul_comm]

/-- Settles O34: half or twice the source that the parameter names, and the bit shifted out over the result. -/
theorem shiftsWriteResultThenShiftedOutBit : Obligations.ShiftsWriteResultThenShiftedOutBit := by
  intro x y s a hvx hvy
  have hsource := State.shiftSource_eq hvx hvy
  refine ⟨⟨_, exec_eq_next (.shr x y) s, fun hx => ?half, ?lowBit, rfl,
      s.changesOnlyRegs_setResultAndFlag_advance x _ _⟩,
    ⟨_, exec_eq_next (.shl x y) s, fun hx => ?twice, ?highBit, rfl,
      s.changesOnlyRegs_setResultAndFlag_advance x _ _⟩⟩
  all_goals rw [State.after, hsource, State.advance_reg]
  case half => rw [s.reg_setResultAndFlag_result _ _ hx, toNat_shiftRight_one]
  case lowBit => rw [State.reg_setResultAndFlag_vf, shiftedOutRight_toNat]
  case twice => rw [s.reg_setResultAndFlag_result _ _ hx, toNat_shiftLeft_one]
  case highBit => rw [State.reg_setResultAndFlag_vf, shiftedOutLeft_toNat]

/-! ### Random -/

theorem State.randomByte_getLsbD (s : State) {k : Nat} (hk : k < 8) :
    s.randomByte.getLsbD k = s.input.rnd.val.testBit k := by
  rw [State.randomByte, BitVec.getLsbD_ofNat, decide_eq_true hk, Bool.true_and]

theorem State.randomByte_toNat (s : State) : s.randomByte.toNat = s.input.rnd.val := by
  have hlt := s.input.rnd.isLt
  rw [State.randomByte, BitVec.toNat_ofNat, Nat.mod_eq_of_lt (by omega)]

/-- A mask takes bits away, so no random byte becomes 255 under it (R37, R141). -/
theorem State.randomByte_and_ne_255 (s : State) (kk : Byte) : s.randomByte &&& kk ≠ 255 := by
  intro h
  have hle : (s.randomByte &&& kk).toNat ≤ s.randomByte.toNat := by
    rw [BitVec.toNat_and]
    exact Nat.and_le_left
  rw [h, s.randomByte_toNat] at hle
  exact absurd (Nat.lt_of_le_of_lt hle s.input.rnd.isLt) (by decide)

/-- Settles O35: the bits of the byte under the mask, and the byte is below 255. -/
theorem randomIsMaskedAndNever255 : Obligations.RandomIsMaskedAndNever255 := by
  intro x kk s
  refine ⟨_, exec_eq_next (.rnd x kk) s, fun k hk => ?bits, ?bound, rfl, s.changesOnlyRegs_setReg_advance x _⟩
  case bits => rw [State.after, s.reg_setReg_advance_self, BitVec.getLsbD_and, s.randomByte_getLsbD hk]
  case bound =>
    rw [State.after, s.reg_setReg_advance_self]
    exact s.randomByte_and_ne_255 kk

/-! ### Skips -/

/-- A skip and the skip on the opposite condition, each way (R120 to R126). -/
theorem State.skipIf_pc_pair (s : State) (c : Bool) :
    (c = true → (s.skipIf c).pc = s.pc + 4 ∧ (s.skipIf !c).pc = s.pc + 2) ∧
    (c = false → (s.skipIf c).pc = s.pc + 2 ∧ (s.skipIf !c).pc = s.pc + 4) := by
  cases c with
  | true => exact ⟨fun _ => ⟨rfl, rfl⟩, nofun⟩
  | false => exact ⟨nofun, fun _ => ⟨rfl, rfl⟩⟩

/-- The two skips on a comparison of bytes (R121 to R124). -/
theorem State.skipIf_beq_pc_pair (s : State) (a b : Byte) :
    (a = b → (s.skipIf (a == b)).pc = s.pc + 4 ∧ (s.skipIf (a != b)).pc = s.pc + 2) ∧
    (a ≠ b → (s.skipIf (a == b)).pc = s.pc + 2 ∧ (s.skipIf (a != b)).pc = s.pc + 4) := by
  obtain ⟨hskip, hnext⟩ := s.skipIf_pc_pair (a == b)
  exact ⟨fun h => hskip (beq_iff_eq.mpr h), fun h => hnext (beq_eq_false_iff_ne.mpr h)⟩

/-- Settles O36: both comparisons, with a byte and with a register, are pairs of opposite skips. -/
theorem skipsCompareRegisters : Obligations.SkipsCompareRegisters := by
  refine ⟨fun x kk s => ?_, fun x y s => ?_⟩
  · obtain ⟨heq, hne⟩ := s.skipIf_beq_pc_pair (s.reg x) kk
    exact ⟨_, _, exec_eq_next (.seImm x kk) s, exec_eq_next (.sneImm x kk) s, heq, hne,
      s.changesOnlyRegs_nil_skipIf _, s.changesOnlyRegs_nil_skipIf _⟩
  · obtain ⟨heq, hne⟩ := s.skipIf_beq_pc_pair (s.reg x) (s.reg y)
    exact ⟨_, _, exec_eq_next (.seReg x y) s, exec_eq_next (.sneReg x y) s, heq, hne,
      s.changesOnlyRegs_nil_skipIf _, s.changesOnlyRegs_nil_skipIf _⟩

/-- Settles O37: opposite skips on the level of the key that the low 4 bits name. -/
theorem skipsTestTheKeyLevel : Obligations.SkipsTestTheKeyLevel := by
  intro x s
  obtain ⟨hdown, hup⟩ := s.skipIf_pc_pair (s.keyDown x)
  rw [← s.keyDown_eq x]
  exact ⟨_, _, exec_eq_next (.skp x) s, exec_eq_next (.sknp x) s, hdown, hup, s.changesOnlyRegs_nil_skipIf _,
    s.changesOnlyRegs_nil_skipIf _⟩

/-! ### The index register -/

theorem State.changesOnlyIndex_setIndex_advance (s : State) (a : Word) : ChangesOnlyIndex s (s.setIndex a).advance :=
  ⟨fun _ _ => rfl, ⟨rfl, rfl⟩, ⟨rfl, rfl, rfl⟩, fun _ => rfl, ⟨rfl, rfl, fun _ _ => rfl⟩, ⟨rfl, rfl⟩, ⟨rfl, rfl⟩,
    ⟨rfl, rfl, rfl⟩⟩

theorem glyphAddr_toNat (digit : Byte) : (glyphAddr digit).toNat = 5 * digit.toNat := by
  have hlt := digit.isLt
  rw [glyphAddr, BitVec.toNat_mul, wide_toNat, show (5 : Word).toNat = 5 from rfl, Nat.mod_eq_of_lt (by omega)]

/-- Settles O44: the three sources of `I`; only the sum can pass 65535. -/
theorem indexRegisterResults : Obligations.IndexRegisterResults := by
  refine ⟨fun nnn s => ⟨_, exec_eq_next (.ldI nnn) s, immAddr_toNat nnn, rfl, s.changesOnlyIndex_setIndex_advance _⟩,
    fun x s => ⟨_, exec_eq_next (.addI x) s, ?sum, rfl, s.changesOnlyIndex_setIndex_advance _⟩,
    fun x s => ⟨_, exec_eq_next (.ldF x) s, glyphAddr_toNat (s.reg x), rfl, s.changesOnlyIndex_setIndex_advance _⟩⟩
  case sum => rw [State.after, State.advance_i, State.setIndex_i, BitVec.toNat_add, wide_toNat]

end Sys2Proof.Machine
end

section
/-!
Jumps, the call stack, the conditions and the host hooks (spec/40_control_flow.md), loads and stores of registers
(spec/43_index_memory.md), timers and keys (spec/44_timers_keys.md).
-/

namespace Sys2Proof.Machine

/-! ### Control flow -/

/-- Settles O39: the sum is the target, and a jump writes `PC` alone. -/
theorem jumpV0AddsTheOffset : Obligations.JumpV0AddsTheOffset :=
  fun nnn s => ⟨_, exec_eq_next (.jpV0 nnn) s, immAddr_add_wide_toNat nnn (s.reg 0),
    s.changesOnlyRegs_nil_jump (immAddr nnn + wide (s.reg 0))⟩

theorem State.push_stack_getElem (s : State) (a : Word) (k : Fin 16) :
    (s.push a).stack[k] = if k.val = s.sp.toNat then a else s.stack[k] := by
  show (s.stack.set s.sp.toNat a)[k.val] = _
  rw [Vector.getElem_set]
  exact if_congr eq_comm rfl rfl

/-- Settles O40: the push writes the slot under `SP` and moves it up, and the jump takes the field. -/
theorem callPushesTheReturnAddress : Obligations.CallPushesTheReturnAddress := by
  intro nnn s
  exact ⟨_, exec_eq_next (.call nnn) s, s.push_stack_getElem (s.pc + 2), BitVec.toNat_add s.sp 1, immAddr_toNat nnn,
    fun _ _ => rfl, rfl, ⟨rfl, rfl, rfl⟩, fun _ => rfl, ⟨rfl, rfl, fun _ _ => rfl⟩, ⟨rfl, rfl⟩, ⟨rfl, rfl⟩,
    ⟨rfl, rfl, rfl⟩⟩

/-- `SP - 1` modulo 16 (R101). -/
theorem nibble_sub_one_toNat (n : Nibble) : (n - 1).toNat = (n.toNat + 15) % 16 := by
  rw [BitVec.toNat_sub, Nat.add_comm]
  rfl

theorem State.topOfStack_eq (s : State) {k : Fin 16} (hk : k.val = (s.sp.toNat + 15) % 16) :
    s.topOfStack = s.stack[k] :=
  getElem_congr_idx ((nibble_sub_one_toNat s.sp).trans hk.symm)

/-- Settles O41: the pop moves `SP` down and the jump takes the slot it then names; right after a push that is the value
pushed, and `SP` is where it was. -/
theorem returnPopsTheStackAndResumes : Obligations.ReturnPopsTheStackAndResumes := by
  refine ⟨fun s => ?pops, fun nnn s => ?resumes⟩
  case pops =>
    exact ⟨_, exec_eq_next .ret s, nibble_sub_one_toNat s.sp, fun k hk => s.topOfStack_eq hk, rfl, fun _ _ => rfl, rfl,
      ⟨rfl, rfl, rfl⟩, fun _ => rfl, ⟨rfl, rfl, fun _ _ => rfl⟩, ⟨rfl, rfl⟩, ⟨rfl, rfl⟩, ⟨rfl, rfl, rfl⟩⟩
  case resumes =>
    exact ⟨_, _, exec_eq_next (.call nnn) s, exec_eq_next .ret _, s.topOfStack_push (s.pc + 2),
      BitVec.add_sub_cancel s.sp 1⟩

/-- Settles O42: each of them is its condition raised. -/
theorem exitAndUnsupportedRaiseTheirConditions : Obligations.ExitAndUnsupportedRaiseTheirConditions :=
  ⟨exec_eq_next .exit, fun x s => ⟨exec_eq_next (.unsupportedFx30 x) s, exec_eq_next (.unsupportedFx75 x) s,
    exec_eq_next (.unsupportedFx85 x) s⟩⟩

/-- Settles O55: one emits its event, the other writes the two colours. -/
theorem frequencyHintAndColourHooks : Obligations.FrequencyHintAndColourHooks :=
  fun s => ⟨⟨_, exec_eq_next .sys100 s, rfl, rfl, fun _ _ => rfl, rfl, ⟨rfl, rfl⟩, ⟨rfl, rfl, rfl⟩, fun _ => rfl,
      ⟨rfl, rfl, fun _ _ => rfl⟩, ⟨rfl, rfl⟩, rfl, ⟨rfl, rfl, rfl⟩⟩,
    ⟨_, exec_eq_next .sys102 s, rfl, rfl, rfl, fun _ _ => rfl, rfl, ⟨rfl, rfl⟩, ⟨rfl, rfl, rfl⟩, fun _ => rfl,
      ⟨rfl, rfl, fun _ _ => rfl⟩, ⟨rfl, rfl⟩, ⟨rfl, rfl, rfl⟩⟩⟩

/-! ### Loads and stores of registers -/

/-- Settles O46: register `r` is byte `r` of the store, read back at its own masked address. -/
theorem blockStoreWritesRegistersUpToX : Obligations.BlockStoreWritesRegistersUpToX := by
  intro x s hwf
  refine ⟨_, exec_eq_next (.storeRegs x) s, fun r hr => ?stored, rfl, ?frame⟩
  case stored =>
    have hlength := s.regsUpTo_length x
    have hlt : r.val < (s.regsUpTo x).length := by rw [hlength]; exact Nat.lt_succ_of_le hr
    have hread := State.memRead_memStore hwf s.i.toNat (s.regsUpTo x) (by omega) hlt
    exact hread.trans (s.regsUpTo_get x r.val hlt)
  case frame =>
    rw [← s.regsUpTo_length x]
    exact State.changesOnlyMemory_memStore_advance hwf s.i.toNat (s.regsUpTo x)

/-- Settles O47: register `r` up to `x` is read at its own masked address. -/
theorem blockLoadReadsRegistersUpToX : Obligations.BlockLoadReadsRegistersUpToX := by
  intro x s
  refine ⟨_, exec_eq_next (.loadRegs x) s, fun r hr => ?loaded, fun r hr => ?above, rfl, rfl, ⟨rfl, rfl⟩,
    ⟨rfl, rfl, rfl⟩, fun _ => rfl, ⟨rfl, rfl, fun _ _ => rfl⟩, ⟨rfl, rfl⟩, ⟨rfl, rfl⟩, ⟨rfl, rfl, rfl⟩⟩
  case loaded =>
    rw [State.after, State.advance_reg, State.reg_loadRegsTo, if_pos hr, State.memRead_mask]
    rfl
  case above => rw [State.after, State.advance_reg, State.reg_loadRegsTo, if_neg (not_le_of_gt hr)]

/-! ### Timers and keys -/

/-- Settles O49: one writes `V[x]`, the other `DT`. -/
theorem delayTimerIsReadAndWritten : Obligations.DelayTimerIsReadAndWritten :=
  fun x s => ⟨⟨_, exec_eq_next (.ldVxDt x) s, s.reg_setReg_advance_self x s.dt, rfl,
      s.changesOnlyRegs_setReg_advance x s.dt⟩,
    ⟨_, exec_eq_next (.ldDtVx x) s, rfl, rfl, rfl, rfl, fun _ _ => rfl, rfl, ⟨rfl, rfl⟩, fun _ => rfl,
      ⟨rfl, rfl, fun _ _ => rfl⟩, ⟨rfl, rfl⟩, ⟨rfl, rfl⟩, ⟨rfl, rfl, rfl⟩⟩⟩

/-- The tone and the event of a write to the sound timer, by its edge (R28, R163). -/
theorem State.setSound_tone_events (s : State) (b : Byte) :
    (s.st = 0 → b ≠ 0 → (s.setSound b).tone = true ∧ (s.setSound b).events = s.events ++ [.beginTone]) ∧
    (s.st ≠ 0 → b = 0 → (s.setSound b).tone = false ∧ (s.setSound b).events = s.events ++ [.endTone]) ∧
    ((s.st = 0 ↔ b = 0) → (s.setSound b).tone = s.tone ∧ (s.setSound b).events = s.events) := by
  rw [State.setSound_tone, State.setSound_events, toneAfter, toneEvents]
  refine ⟨fun hst hb => ?starts, fun hst hb => ?stops, fun hboth => ?keeps⟩
  case starts =>
    have hedge : s.st = 0 ∧ b ≠ 0 := ⟨hst, hb⟩
    exact ⟨if_pos hedge, by rw [if_pos hedge]⟩
  case stops =>
    have hno : ¬(s.st = 0 ∧ b ≠ 0) := fun h => hst h.1
    have hedge : s.st ≠ 0 ∧ b = 0 := ⟨hst, hb⟩
    exact ⟨(if_neg hno).trans (if_pos hedge), by rw [if_neg hno, if_pos hedge]⟩
  case keeps =>
    have hno : ¬(s.st = 0 ∧ b ≠ 0) := fun h => h.2 (hboth.mp h.1)
    have hno' : ¬(s.st ≠ 0 ∧ b = 0) := fun h => h.1 (hboth.mpr h.2)
    exact ⟨(if_neg hno).trans (if_neg hno'), by rw [if_neg hno, if_neg hno', List.append_nil]⟩

/-- Settles O50: `ST` is the register, and the tone follows the edge. -/
theorem soundTimerWriteDrivesTheTone : Obligations.SoundTimerWriteDrivesTheTone := by
  intro x s
  obtain ⟨hstarts, hstops, hkeeps⟩ := s.setSound_tone_events (s.reg x)
  exact ⟨_, exec_eq_next (.ldStVx x) s, rfl, rfl, hstarts, hstops, hkeeps, rfl, fun _ _ => rfl, rfl, ⟨rfl, rfl⟩,
    fun _ => rfl, ⟨rfl, rfl, fun _ _ => rfl⟩, ⟨rfl, rfl⟩, rfl, ⟨rfl, rfl, rfl⟩⟩

theorem lowestKey_eq_some {keys : BitVec 16} {k : Reg} (hdown : keys.getLsbD k.val = true)
    (hleast : ∀ j < k.val, keys.getLsbD j = false) : lowestKey keys = some k := by
  rw [lowestKey, List.find?_eq_some_iff_getElem]
  refine ⟨hdown, k.val, by simp, by simp, fun j hj => ?_⟩
  simp [hleast j hj]

/-- Settles O51: the search finds no key, or the least one. -/
theorem keyWaitTakesTheLeastKey : Obligations.KeyWaitTakesTheLeastKey := by
  refine fun x s => ⟨fun hup => ?waits, fun k hk hdown hleast => ?takes⟩
  case waits =>
    have hnone : lowestKey s.input.keys = none :=
      lowestKey_eq_none_iff.mpr (BitVec.eq_of_getLsbD_eq fun k hk => by simp [hup k hk])
    rw [exec_eq_next, State.after, State.awaitKey_of_none hnone]
  case takes =>
    have hsome : lowestKey s.input.keys = some ⟨k, hk⟩ := lowestKey_eq_some hdown hleast
    refine ⟨_, exec_eq_next (.ldVxK x) s, ?_⟩
    rw [State.after, State.awaitKey_of_some hsome]
    refine ⟨?_, rfl, s.changesOnlyRegs_setReg_advance x _⟩
    rw [s.reg_setReg_advance_self, BitVec.toNat_ofNat, Nat.mod_eq_of_lt (by omega)]

end Sys2Proof.Machine
end

section
/-!
The display: scrolls and width modes (spec/45_display.md R170 to R178), the refresh (spec/60_exceptions.md R214), and
the state that a reset leaves (spec/10_state.md R41, spec/70_reset_and_hazards.md R230).
-/

namespace Sys2Proof.Machine

/-! ### Scrolls and width modes -/

theorem State.changesOnlyPicture_nil_redraw_advance (s : State) (f : Nat → Nat → Byte) :
    ChangesOnlyPicture [] s (s.redraw f).advance :=
  ⟨fun _ _ => rfl, rfl, ⟨rfl, rfl⟩, ⟨rfl, rfl, rfl⟩, fun _ => rfl, ⟨rfl, rfl⟩, rfl, ⟨rfl, rfl, rfl⟩⟩

theorem State.changesOnlyPicture_nil_resize_advance (s : State) (w : Width) :
    ChangesOnlyPicture [] s (s.resize w).advance :=
  ⟨fun _ _ => rfl, rfl, ⟨rfl, rfl⟩, ⟨rfl, rfl, rfl⟩, fun _ => rfl, ⟨rfl, rfl⟩, rfl, ⟨rfl, rfl, rfl⟩⟩

/-- Settles O53: each live cell is drawn anew from the plane before, and a cell with no source is the background. -/
theorem scrollsMoveEveryCell : Obligations.ScrollsMoveEveryCell := by
  refine ⟨fun n s => ⟨_, exec_eq_next (.scd n) s, fun px py hon => ?down, rfl, rfl, rfl, rfl,
      s.changesOnlyPicture_nil_redraw_advance _⟩,
    fun s => ⟨_, exec_eq_next .scr s, fun px py hon => ?right, rfl, rfl, rfl, rfl,
      s.changesOnlyPicture_nil_redraw_advance _⟩,
    fun s => ⟨_, exec_eq_next .scl s, fun px py hon => ?left, rfl, rfl, rfl, rfl,
      s.changesOnlyPicture_nil_redraw_advance _⟩⟩
  all_goals
    rw [State.after, State.advance_cell, s.cell_redraw _ hon.1 hon.2, ← ite_not]
  case down => simp only [Nat.not_le]
  case right => simp only [Nat.not_le]
  case left => simp only [Nat.not_lt]

/-- Settles O54: the plane of the new width is filled with the background, and the width is notified. -/
theorem widthModesResizeAndClear : Obligations.WidthModesResizeAndClear :=
  fun s => ⟨⟨_, exec_eq_next .low s, rfl, fun _ _ hx hy => s.cell_resize .w64 hx hy, rfl, rfl, rfl,
      s.changesOnlyPicture_nil_resize_advance .w64⟩,
    ⟨_, exec_eq_next .high s, rfl, fun _ _ hx hy => s.cell_resize .w128 hx hy, rfl, rfl, rfl,
      s.changesOnlyPicture_nil_resize_advance .w128⟩⟩

/-! ### Refresh -/

theorem State.liveCells_length (s : State) : s.liveCells.length = s.width.cols * s.width.rows := by
  rw [State.liveCells, List.length_map, List.length_range, Width.liveCells]

theorem State.liveCells_getElem? (s : State) {px py : Nat} (h : OnPlane s px py) :
    s.liveCells[py * s.width.cols + px]? = some (s.cell px py) := by
  have hlt : py * s.width.cols + px < s.width.liveCells := Plane.index_lt h.1 h.2
  rw [State.liveCells, List.getElem?_map, List.getElem?_range hlt]
  rfl

/-- Settles O60: a refresh writes the dirty flag and the events, and shows the list of the live cells. -/
theorem refreshShowsADirtyPlane : Obligations.RefreshShowsADirtyPlane := by
  refine fun s => ⟨rfl, fun hclean => ?clean, fun hdirty => ⟨s.liveCells, ?dirty, s.liveCells_length,
    fun px py hon => s.liveCells_getElem? hon⟩⟩
  case clean => rw [State.refresh_events, hclean, if_neg Bool.false_ne_true]
  case dirty => rw [State.refresh_events, hdirty, if_pos rfl]

/-! ### Reset -/

theorem State.holdsResetValues_reset : HoldsResetValues State.reset := by
  refine ⟨fun r => ?reg, rfl, rfl, rfl, fun k => ?stack, rfl, rfl, rfl, rfl, rfl, rfl, fun px py hx hy => ?cell, rfl,
    rfl⟩
  case reg => exact Vector.getElem_replicate r.isLt
  case stack => exact Vector.getElem_replicate k.isLt
  case cell => exact Plane.get_fill (w := .w64) 0 hx hy

/-- A restart takes every listed value from the reset state. -/
theorem State.holdsResetValues_restart (s : State) : HoldsResetValues s.restart := State.holdsResetValues_reset

theorem memRead_of_memory_nil {t : State} (h : t.memory = []) {a : Nat} (ha : a < 4096) :
    t.memRead a = resetByte t.config a := by
  rw [State.memRead, Memory.read, h, maskAddr_of_lt ha]
  rfl

theorem resetByte_font (c : Config) {a : Nat} (ha : a < 80) : resetByte c a = c.font[a] := dif_pos ha

theorem resetByte_gap (c : Config) {a : Nat} (h80 : 80 ≤ a) (h512 : a < 512) : resetByte c a = 0 := by
  rw [resetByte, dif_neg (by omega), if_neg fun h => absurd h.1 (Nat.not_le_of_lt h512)]

theorem resetByte_image (c : Config) {a : Nat} (h512 : 512 ≤ a) (ha : a < 4096) :
    resetByte c a = c.image.getD (a - 512) 0 := by
  rw [resetByte, dif_neg (by omega), if_pos ⟨h512, ha⟩]
  rfl

/-- A memory that lists nothing reads as font, image and zeros (R41, R67, R77). -/
theorem holdsResetMemory_of_memory_nil {t : State} (h : t.memory = []) : HoldsResetMemory t := by
  refine ⟨fun a => ?font, fun a h80 h512 => ?gap, fun j hj hj' => ?image, fun a hlow ha => ?rest⟩
  case font => rw [memRead_of_memory_nil h (by omega), resetByte_font _ a.isLt]; rfl
  case gap => rw [memRead_of_memory_nil h (by omega), resetByte_gap _ h80 h512]
  case image =>
    rw [memRead_of_memory_nil h (by omega), resetByte_image _ (by omega) (by omega), Nat.add_sub_cancel_left,
      List.getD_eq_getElem _ _ hj]
  case rest =>
    rw [memRead_of_memory_nil h ha, resetByte_image _ (by omega) ha, List.getD_eq_default _ _ (by omega)]

theorem State.restart_events_eq (s : State) : s.restart.events =
    s.events ++ (if s.tone = true then [.endTone, .loadProgram] else [.loadProgram]) := by
  rw [State.restart_events, List.append_assoc]
  cases s.tone <;> rfl

/-- Settles O43: the soft reset is the restart. -/
theorem softResetLeavesTheResetState : Obligations.SoftResetLeavesTheResetState :=
  fun s => ⟨_, exec_eq_next .sys101 s, s.holdsResetValues_restart, holdsResetMemory_of_memory_nil rfl, ⟨rfl, rfl, rfl⟩,
    s.restart_events_eq⟩

/-- Settles O58: the host's reset is the restart with the image taken and no event before it. -/
theorem hostResetLoadsTheImage : Obligations.HostResetLoadsTheImage :=
  fun image s => ⟨State.holdsResetValues_restart _, holdsResetMemory_of_memory_nil rfl, rfl, rfl,
    State.restart_events_eq { s with events := [], config := { s.config with image := image } }⟩

/-- Settles O59: the values are listed, and the memory lists nothing over them. -/
theorem resetStateHoldsTheListedValues : Obligations.ResetStateHoldsTheListedValues :=
  ⟨State.holdsResetValues_reset, holdsResetMemory_of_memory_nil rfl, rfl⟩

end Sys2Proof.Machine
end

section
/-!
Drawing sprites (spec/45_display.md R172, R180): the pixels of a sprite in the words of the rule, the picture and the
collision of one draw, and a draw undone by the same draw in `XOR` mode.
-/

namespace Sys2Proof.Machine

/-! ### The pixels of a sprite -/

section Sprite

variable {s : State} {n : Nibble}

theorem spriteShape_of_big (h : BigSprite s n) : spriteShape s.width n = ⟨16, 16, 2⟩ := if_pos h

theorem spriteShape_of_not_big (h : ¬BigSprite s n) : spriteShape s.width n = ⟨n.toNat, 8, 1⟩ := if_neg h

/-- The first byte of a sprite's row holds its columns 0 to 7 (R180). -/
theorem State.spriteBit_first (s : State) (shape : SpriteShape) (r : Nat) {c : Nat} (hc : c < 8) :
    s.spriteBit shape r c = (s.memRead (s.i.toNat + r * shape.bytesPerRow)).getLsbD (7 - c) := by
  rw [State.spriteBit, State.ea, Nat.div_eq_of_lt hc, Nat.mod_eq_of_lt hc, Nat.add_zero]

/-- The second byte of a sprite's row holds its columns 8 to 15 (R180). -/
theorem State.spriteBit_second (s : State) (shape : SpriteShape) (r : Nat) {c : Nat} (h8 : 8 ≤ c) (hc : c < 16) :
    s.spriteBit shape r c = (s.memRead (s.i.toNat + r * shape.bytesPerRow + 1)).getLsbD (15 - c) := by
  rw [State.spriteBit, State.ea, show c / 8 = 1 by omega, show 7 - c % 8 = 15 - c by omega, Nat.add_assoc]

/-- A sprite lights the pixels that the draw plots. -/
theorem spriteLights_iff_mem (x y : Reg) (px py : Nat) :
    SpriteLights s x y n px py ↔ (px, py) ∈ s.drawnPixels x y n := by
  rw [State.drawnPixels, State.mem_spritePixels]
  simp only [Prod.mk.injEq]
  by_cases hbig : BigSprite s n
  · rw [spriteShape_of_big hbig]
    constructor
    · rintro ⟨r, c, hpx, hpy, ⟨-, hr, hc, hbit⟩ | ⟨-, hr, h8, hc, hbit⟩ | ⟨hsmall, -⟩⟩
      · rw [Nat.mul_comm, ← s.spriteBit_first ⟨16, 16, 2⟩ r hc] at hbit
        exact ⟨r, hr, c, Nat.lt_trans hc (by decide), hbit, hpx, hpy⟩
      · rw [Nat.mul_comm, ← s.spriteBit_second ⟨16, 16, 2⟩ r h8 hc] at hbit
        exact ⟨r, hr, c, hc, hbit, hpx, hpy⟩
      · exact absurd hbig hsmall
    · rintro ⟨r, hr, c, hc, hbit, hpx, hpy⟩
      refine ⟨r, c, hpx, hpy, ?_⟩
      rw [Nat.mul_comm 2 r]
      by_cases h8 : c < 8
      · rw [s.spriteBit_first _ r h8] at hbit
        exact .inl ⟨hbig, hr, h8, hbit⟩
      · rw [s.spriteBit_second _ r (Nat.le_of_not_lt h8) hc] at hbit
        exact .inr (.inl ⟨hbig, hr, Nat.le_of_not_lt h8, hc, hbit⟩)
  · rw [spriteShape_of_not_big hbig]
    constructor
    · rintro ⟨r, c, hpx, hpy, ⟨hbig', -⟩ | ⟨hbig', -⟩ | ⟨-, hr, hc, hbit⟩⟩
      · exact absurd hbig' hbig
      · exact absurd hbig' hbig
      · rw [← Nat.mul_one r, ← s.spriteBit_first ⟨n.toNat, 8, 1⟩ r hc] at hbit
        exact ⟨r, hr, c, hc, hbit, hpx, hpy⟩
    · rintro ⟨r, hr, c, hc, hbit, hpx, hpy⟩
      rw [s.spriteBit_first _ r hc, Nat.mul_one] at hbit
      exact ⟨r, c, hpx, hpy, .inr (.inr ⟨hbig, hr, hc, hbit⟩)⟩

theorem State.drawnPixels_nodup (s : State) (x y : Reg) (n : Nibble) : (s.drawnPixels x y n).Nodup :=
  State.spritePixels_nodup _ _ _

end Sprite

/-! ### One draw -/

section Draw

variable {s : State}

/-- The collision bit of a plot is the lit test of the cell (R172). -/
theorem plotCell_collides_iff (s : State) (px py : Nat) :
    (plotCell s.config.drawMode s.fg s.bg (s.cell px py)).2 = true ↔ CellIsLit s px py := by
  unfold CellIsLit plotCell
  cases s.config.drawMode with
  | xor => exact Iff.rfl
  | overwrite =>
    by_cases hlit : s.cell px py = s.fg
    · simp [hlit]
    · simp [hlit]

theorem plotCell_overwrite (fg bg c : Byte) : (plotCell .overwrite fg bg c).1 = if c = fg then bg else fg := by
  by_cases hlit : c = fg
  · simp [plotCell, hlit]
  · simp [plotCell, hlit]

theorem plotCell_xor (fg bg c : Byte) : (plotCell .xor fg bg c).1 = c ^^^ 1 := rfl

/-- A plot in `XOR` mode flips bit 0 and no other (R172). -/
theorem getLsbD_xor_one (c : Byte) (k : Nat) : (c ^^^ 1).getLsbD k = (c.getLsbD k ^^ decide (k = 0)) := by
  rw [BitVec.getLsbD_xor, BitVec.ofNat_eq_ofNat, BitVec.getLsbD_one]
  rfl

/-- The picture after a draw (R180). -/
theorem cell_after_drw (hwf : Plane.wf s.width s.plane = true) (x y : Reg) (n : Nibble) {px py : Nat}
    (hon : OnPlane s px py) : (s.after (.drw x y n)).cell px py =
      if (px, py) ∈ s.drawnPixels x y n then (plotCell s.config.drawMode s.fg s.bg (s.cell px py)).1
      else s.cell px py :=
  plotAll_get (pen := s.pen) hwf (s.drawnPixels_nodup x y n) hon.1 hon.2

/-- The collision of a draw (R180). -/
theorem collides_iff (hwf : Plane.wf s.width s.plane = true) (x y : Reg) (n : Nibble) :
    s.collides (s.drawnPixels x y n) = true ↔
      ∃ px py, OnPlane s px py ∧ SpriteLights s x y n px py ∧ CellIsLit s px py := by
  refine (plotAll_collision (pen := s.pen) hwf (s.drawnPixels_nodup x y n)).trans ?_
  simp only [spriteLights_iff_mem, ← plotCell_collides_iff, Prod.exists]
  refine exists_congr fun px => exists_congr fun py => ?_
  rw [and_left_comm, Width.onPlane_iff]
  rfl

theorem reg_vf_after_drw (s : State) (x y : Reg) (n : Nibble) :
    (s.after (.drw x y n)).reg 15 = flagByte (s.collides (s.drawnPixels x y n)) :=
  State.reg_setReg_advance_self _ vf _

theorem reg_after_drw_of_ne (s : State) (x y : Reg) (n : Nibble) {r : Reg} (hr : r ≠ 15) :
    (s.after (.drw x y n)).reg r = s.reg r :=
  State.reg_setReg_advance_of_ne _ _ hr

theorem changesOnlyPicture_after_drw (s : State) (x y : Reg) (n : Nibble) :
    ChangesOnlyPicture [15] s (s.after (.drw x y n)) :=
  ⟨fun _ hr => reg_after_drw_of_ne s x y n (List.ne_of_not_mem_cons hr), rfl, ⟨rfl, rfl⟩, ⟨rfl, rfl, rfl⟩, fun _ => rfl,
    ⟨rfl, rfl⟩, rfl, ⟨rfl, rfl, rfl⟩⟩

end Draw

/-- Settles O56: the draw plots the lit pixels, which are distinct, and its flag is their collision. -/
theorem drawPlotsEachLitPixelOnce : Obligations.DrawPlotsEachLitPixelOnce := by
  intro x y n s hwf
  refine ⟨_, exec_eq_next (.drw x y n) s, fun px py hon hdark => ?dark,
    fun px py hon hlights => ⟨fun hmode => ?overwrite, fun hmode k => ?xor⟩, fun hmeets => ?meets,
    fun hmisses => ?misses, rfl, rfl, rfl, rfl, changesOnlyPicture_after_drw s x y n⟩
  case dark => rw [cell_after_drw hwf x y n hon, if_neg (mt (spriteLights_iff_mem x y px py).mpr hdark)]
  case overwrite =>
    rw [cell_after_drw hwf x y n hon, if_pos ((spriteLights_iff_mem x y px py).mp hlights), hmode, plotCell_overwrite]
  case xor =>
    rw [cell_after_drw hwf x y n hon, if_pos ((spriteLights_iff_mem x y px py).mp hlights), hmode, plotCell_xor,
      getLsbD_xor_one]
  case meets => rw [reg_vf_after_drw, flagByte_eq_one, collides_iff hwf]; exact hmeets
  case misses =>
    rw [reg_vf_after_drw, flagByte_eq_zero, ← Bool.not_eq_true, collides_iff hwf]
    exact hmisses

/-! ### The same draw twice -/

section DrawTwice

variable {s : State} {x y : Reg}

theorem plane_wf_after_drw (hwf : Plane.wf s.width s.plane = true) (x y : Reg) (n : Nibble) :
    Plane.wf (s.after (.drw x y n)).width (s.after (.drw x y n)).plane = true :=
  plotAll_wf (pen := s.pen) hwf _

/-- The second draw plots the same pixels, where the flag of the first is no coordinate. -/
theorem drawnPixels_after_drw (hx : x ≠ 15) (hy : y ≠ 15) (n : Nibble) :
    (s.after (.drw x y n)).drawnPixels x y n = s.drawnPixels x y n := by
  rw [State.drawnPixels, reg_after_drw_of_ne s x y n hx, reg_after_drw_of_ne s x y n hy]
  rfl

theorem cell_after_drw_xor (hwf : Plane.wf s.width s.plane = true) (hmode : s.config.drawMode = .xor) (n : Nibble)
    {px py : Nat} (hon : OnPlane s px py) : (s.after (.drw x y n)).cell px py =
      if (px, py) ∈ s.drawnPixels x y n then s.cell px py ^^^ 1 else s.cell px py := by
  rw [cell_after_drw hwf x y n hon, hmode, plotCell_xor]

theorem cellIsLit_iff_of_xor (hmode : s.config.drawMode = .xor) {px py : Nat} :
    CellIsLit s px py ↔ (s.cell px py).getLsbD 0 = true := by
  rw [CellIsLit, hmode]

end DrawTwice

/-- Settles O57: both draws flip bit 0 of the same cells, so a cell that the first one lit is lit for the second. -/
theorem xorDrawTwiceRestoresThePicture : Obligations.XorDrawTwiceRestoresThePicture := by
  intro x y n s hwf hmode hx hy
  have hwf' := plane_wf_after_drw hwf x y n
  refine ⟨_, _, exec_eq_next (.drw x y n) s, exec_eq_next (.drw x y n) _, fun px py hon => ?restored, ?collision⟩
  case restored =>
    rw [cell_after_drw_xor hwf' hmode n hon, drawnPixels_after_drw hx hy, cell_after_drw_xor hwf hmode n hon]
    split
    · rw [BitVec.xor_assoc, BitVec.xor_self, BitVec.xor_zero]
    · rfl
  case collision =>
    rintro ⟨px, py, hon, hlights, hunlit⟩
    rw [reg_vf_after_drw, flagByte_eq_one, collides_iff hwf']
    have hmem := (spriteLights_iff_mem x y px py).mp hlights
    refine ⟨px, py, hon, ?_, ?_⟩
    · rwa [spriteLights_iff_mem, drawnPixels_after_drw hx hy]
    · rw [cellIsLit_iff_of_xor hmode, Bool.not_eq_true] at hunlit
      rw [cellIsLit_iff_of_xor (s := s.after (.drw x y n)) hmode, cell_after_drw_xor hwf hmode n hon, if_pos hmem,
        getLsbD_xor_one, hunlit]
      rfl

end Sys2Proof.Machine
end
